-- ==== Sys2Proof/Word.lean ====
section
/-! DEFINITION. The two data types of the BITPACK core: the 64-bit word, which is also one beat of the
command and response ports (00_scope.md R7, `WORD_W`, `VAL_W` and `BEAT_W`), and the byte of the
snapshot ports (44_snapshot.md R115). Every number is unsigned (40_combinators.md R76). -/

namespace Sys2Proof

/-- A storage word, a field value, or a beat: 64 bits, bit 0 the least significant (00_scope.md R7, R8). -/
abbrev Word := BitVec 64

/-- One byte of the snapshot source or sink (44_snapshot.md R115). -/
abbrev Byte := BitVec 8

end Sys2Proof
end

