-- ==== Sys2Proof/Config.lean ====
section
/-! DEFINITION. What an implementation fixes (the open parameters of 00_scope.md R7) and the free values:
what the spec leaves unspecified, as constants without a body, so that no proof can rest on a value. -/

namespace Sys2Proof

/-- The two operating modes of 00_scope.md R4, the register `MODE` of 10_state.md R13. -/
inductive Mode where
  /-- `MODE = 0`: every record is a single field (CFGU, LDU). -/
  | uniform
  /-- `MODE = 1`: every record is a tuple of fields (CFGM, LDM). -/
  | multi
deriving DecidableEq, Repr, Inhabited

/-- The open parameters of 00_scope.md R7: "An open parameter is an argument of the model". The state carries
them unchanged, so a statement about every state is a statement about every implementation (log 1). -/
structure Params where
  /-- `NF_MAX`, the largest number of fields per record. -/
  nfMax : Nat
  /-- `NW_MAX`, the number of words of storage. -/
  nwMax : Nat
deriving DecidableEq, Repr

namespace Params

/-- The ranges 00_scope.md R7 gives the open parameters: `1 <= NF_MAX <= 255` and `1 <= NW_MAX < 2^58`. -/
abbrev Legal (c : Params) : Prop :=
  1 ≤ c.nfMax ∧ c.nfMax ≤ 255 ∧ 1 ≤ c.nwMax ∧ c.nwMax < 2 ^ 58

/-- The values every test vector of 95_test_vectors.md uses (00_scope.md R7, last column).
DESIGN CHOICE (log 1), unsafe for claims that start from `State.reset`: the power-on state has to name some. -/
def vectors : Params := { nfMax := 8, nwMax := 4096 }

end Params

/-- Everything that is unspecified while `VALID = 0` (10_state.md R28), and the unspecified position of the
snapshot source after a failed load (44_snapshot.md R115, R127): one draw of it. -/
structure FreeRegisters where
  /-- `MODE`. -/
  mode : Mode
  /-- `NF`. -/
  nf : BitVec 8
  /-- `FW`, entry by entry (entries past the list's end are 0). -/
  fw : List (BitVec 7)
  /-- `RB`. -/
  rb : BitVec 14
  /-- `NW`. -/
  nw : BitVec 58
  /-- `MEM`, as writes into blank storage. -/
  cells : List (Nat × Word)
  /-- The position of the snapshot source. -/
  srcPos : Nat
deriving DecidableEq, Repr, Inhabited

/-- The free values of the `k`-th draw. No body: nothing can be proved of them (log 3, safe). -/
opaque Config.unspecified : Nat → FreeRegisters

/-- `MASK(w)` for `w > 64`, which 40_combinators.md R65 leaves undefined. No body (log 16, safe). -/
opaque Config.maskOutside : Nat → Word

/-- `SHL(x, s)` for `s >= 64`, which 40_combinators.md R75 leaves undefined. No body (log 16, safe). -/
opaque Config.shlOutside : Word → Nat → Word

/-- `SHR(x, s)` for `s >= 64`, which 40_combinators.md R75 leaves undefined. No body (log 16, safe). -/
opaque Config.shrOutside : Word → Nat → Word

end Sys2Proof
end

