-- ==== Sys2Proof/Syntax.lean ====
section
/-! DEFINITION. The nine commands of 30_encoding.md R49, which take the place of instructions
(00_scope.md R2), with their operands (R48, R50). -/

namespace Sys2Proof

/-- A command with its operands, one constructor per row of the opcode table. The header's `n` is the length of
the vector operand list (30_encoding.md R50: "`n` is that length"). -/
inductive Instr where
  /-- BITW, op 0x01: width derivation (40_combinators.md R71). -/
  | bitw (maxValue : Word)
  /-- CFGU, op 0x02: construct a uniform container (42_configuration.md R93). -/
  | cfgu (capacityHint hint : Word)
  /-- CFGM, op 0x03: construct a multi-field container (42_configuration.md R94). -/
  | cfgm (capacityHint : Word) (hints : List Word)
  /-- CAP, op 0x04: capacity query (42_configuration.md R95). -/
  | cap
  /-- SET, op 0x05: write all fields of one record (43_field_access.md R100). -/
  | set (index : Word) (values : List Word)
  /-- GET, op 0x06: read all fields of one record (43_field_access.md R106). -/
  | get (index : Word)
  /-- DUMP, op 0x07: write the container to the sink (44_snapshot.md R116). -/
  | dump
  /-- LDU, op 0x08: load a uniform snapshot (44_snapshot.md R122). -/
  | ldu
  /-- LDM, op 0x09: load a multi-field snapshot (44_snapshot.md R123). -/
  | ldm
deriving DecidableEq, Repr

end Sys2Proof
end

