-- ==== Sys2Proof/WellFormed.lean ====
section
/-! DEFINITION. Which commands a frame can carry: the header's `n` has 8 bits (30_encoding.md R47), so a
vector operand list has at most 255 beats. Operand beats have no illegal values (R52). -/

namespace Sys2Proof

/-- The command has a frame: its vector operands fit the 8-bit count of the header (30_encoding.md R47, R49). -/
def Instr.wellFormed : Instr → Bool
  | .bitw _ => true
  | .cfgu _ _ => true
  | .cfgm _ hints => decide (hints.length ≤ 255)
  | .cap => true
  | .set _ values => decide (values.length ≤ 255)
  | .get _ => true
  | .dump => true
  | .ldu => true
  | .ldm => true

end Sys2Proof
end

