-- ==== Sys2Proof/Decode.lean ====
section
/-! DEFINITION. Command frames (30_encoding.md R47 to R59): the decoder, total on any sequence of beats and
rejecting an illegal header by name; the encoder; the textual form (R56, R57); and the beats of a row of
spec/opcode_table.json. -/

namespace Sys2Proof

/-- The nine opcodes of 30_encoding.md R49. -/
inductive Opcode where
  | bitw | cfgu | cfgm | cap | set | get | dump | ldu | ldm
deriving DecidableEq, Repr

/-- The opcode's number, bits 63:56 of the header (30_encoding.md R49). -/
def Opcode.code : Opcode → Nat
  | .bitw => 0x01
  | .cfgu => 0x02
  | .cfgm => 0x03
  | .cap => 0x04
  | .set => 0x05
  | .get => 0x06
  | .dump => 0x07
  | .ldu => 0x08
  | .ldm => 0x09

/-- The opcode with a given number; every other number is reserved (30_encoding.md R51 a). -/
def Opcode.ofCode : Nat → Option Opcode
  | 0x01 => some .bitw
  | 0x02 => some .cfgu
  | 0x03 => some .cfgm
  | 0x04 => some .cap
  | 0x05 => some .set
  | 0x06 => some .get
  | 0x07 => some .dump
  | 0x08 => some .ldu
  | 0x09 => some .ldm
  | _ => none

/-- `HAS_SCALAR(op)` of 30_encoding.md R58. -/
def Opcode.hasScalar : Opcode → Bool
  | .bitw | .cfgu | .cfgm | .set | .get => true
  | .cap | .dump | .ldu | .ldm => false

/-- Whether `n` is a legal count for the opcode (30_encoding.md R49, R51 c). -/
def Opcode.countLegal (op : Opcode) (n : Nat) : Bool :=
  match op with
  | .bitw | .cap | .get | .dump | .ldu | .ldm => n == 0
  | .cfgu => n == 1
  | .cfgm | .set => true

/-- The length of a frame, `1 + s + n` beats (30_encoding.md R48). -/
def Opcode.frameBeats (op : Opcode) (n : Nat) : Nat :=
  1 + (if op.hasScalar then 1 else 0) + n

/-- `h[63:56]`, the opcode field of a header beat (30_encoding.md R47). -/
def headerOp (h : Word) : Nat := (h.extractLsb' 56 8).toNat

/-- `h[55:48]`, the count field of a header beat (30_encoding.md R47). -/
def headerCount (h : Word) : Nat := (h.extractLsb' 48 8).toNat

/-- `h[47:0]`, the reserved field of a header beat (30_encoding.md R47). -/
def headerZero (h : Word) : Nat := (h.extractLsb' 0 48).toNat

/-- A header beat as a number, `op * 2^56 + n * 2^48` (30_encoding.md R47; the response header of R55 has the
same layout). -/
def headerWord (op n : Nat) : Word := BitVec.ofNat 64 (op * 2 ^ 56 + n * 2 ^ 48)

/-- Why a header beat is illegal: the three cases of 30_encoding.md R51. -/
inductive Reject where
  /-- R51 (b): bits 47:0 are not 0. -/
  | reservedBits
  /-- R51 (a): `op` is 0x00 or 0x0A to 0xFF. -/
  | reservedOpcode
  /-- R51 (c): `n` is not legal for `op`. -/
  | illegalCount
deriving DecidableEq, Repr

/-- The decoding of a header beat, in the order of 30_encoding.md R58. -/
def decodeHeader (h : Word) : Except Reject (Opcode × Nat) :=
  if headerZero h ≠ 0 then .error .reservedBits
  else
    match Opcode.ofCode (headerOp h) with
    | none => .error .reservedOpcode
    | some op => if op.countLegal (headerCount h) then .ok (op, headerCount h) else .error .illegalCount

/-- The command of an opcode whose operand beats, scalar first, are `xs`; none when their number does not fit
the opcode (30_encoding.md R48, R50). -/
def assemble (op : Opcode) (xs : List Word) : Option Instr :=
  match op, xs with
  | .bitw, [a] => some (.bitw a)
  | .cfgu, [a, v] => some (.cfgu a v)
  | .cfgm, a :: vs => some (.cfgm a vs)
  | .cap, [] => some .cap
  | .set, a :: vs => some (.set a vs)
  | .get, [a] => some (.get a)
  | .dump, [] => some .dump
  | .ldu, [] => some .ldu
  | .ldm, [] => some .ldm
  | _, _ => none

/-- What the beats waiting on the command port are. -/
inductive Decoded where
  /-- A whole frame stands first: its command, and the beats after it. -/
  | frame (i : Instr) (rest : List Word)
  /-- The first beat is an illegal header: why, and the beats after it. No operand beat is taken (R51). -/
  | illegal (why : Reject) (rest : List Word)
  /-- The beats end before the frame does; the core waits in `CmdBeat()` (R58). -/
  | incomplete
deriving DecidableEq, Repr

/-- The decode procedure of 30_encoding.md R58 on the beats of the command port. -/
def decode : List Word → Decoded
  | [] => .incomplete
  | h :: rest =>
    match decodeHeader h with
    | .error why => .illegal why rest
    | .ok (op, n) =>
      let k := op.frameBeats n - 1
      if rest.length < k then .incomplete
      else
        match assemble op (rest.take k) with
        | some i => .frame i (rest.drop k)
        | none => .incomplete

/-- The command's opcode (30_encoding.md R49). -/
def Instr.opcode : Instr → Opcode
  | .bitw _ => .bitw
  | .cfgu _ _ => .cfgu
  | .cfgm _ _ => .cfgm
  | .cap => .cap
  | .set _ _ => .set
  | .get _ => .get
  | .dump => .dump
  | .ldu => .ldu
  | .ldm => .ldm

/-- The scalar operand beat, for the commands that have one (30_encoding.md R50). -/
def Instr.scalar : Instr → List Word
  | .bitw a => [a]
  | .cfgu a _ => [a]
  | .cfgm a _ => [a]
  | .cap => []
  | .set a _ => [a]
  | .get a => [a]
  | .dump => []
  | .ldu => []
  | .ldm => []

/-- The vector operand beats, in ascending index order (30_encoding.md R48, R50). -/
def Instr.vector : Instr → List Word
  | .bitw _ => []
  | .cfgu _ v => [v]
  | .cfgm _ vs => vs
  | .cap => []
  | .set _ vs => vs
  | .get _ => []
  | .dump => []
  | .ldu => []
  | .ldm => []

/-- The frame of a command: header, scalar operand, vector operands (30_encoding.md R47, R48). -/
def encode (i : Instr) : List Word :=
  headerWord i.opcode.code i.vector.length :: (i.scalar ++ i.vector)

/-- The pseudo-command `SETU idx, v` (30_encoding.md R57). -/
def pseudoSetu (index value : Word) : Instr := .set index [value]

/-- The pseudo-command `GETU idx` (30_encoding.md R57). -/
def pseudoGetu (index : Word) : Instr := .get index

/-- The command's mnemonic (30_encoding.md R49). -/
def Instr.mnemonic : Instr → String
  | .bitw _ => "BITW"
  | .cfgu _ _ => "CFGU"
  | .cfgm _ _ => "CFGM"
  | .cap => "CAP"
  | .set _ _ => "SET"
  | .get _ => "GET"
  | .dump => "DUMP"
  | .ldu => "LDU"
  | .ldm => "LDM"

/-- The textual form of 30_encoding.md R56: the mnemonic, then the operands in decimal, separated by commas, the
scalar operand first. -/
def Instr.text (i : Instr) : String :=
  match (i.scalar ++ i.vector).map (fun x => toString x.toNat) with
  | [] => i.mnemonic
  | xs => i.mnemonic ++ " " ++ String.intercalate ", " xs

/-- The beats of an instruction whose bits are the low `nbits` bits of `w`, first beat lowest, every bit above
`nbits` zero: `2 + n` beats, as many as a frame with the header's count can have (30_encoding.md R48). -/
def tableBeats (nbits w : Nat) : List Word :=
  (List.range (2 + headerCount (BitVec.ofNat 64 (w % 2 ^ nbits)))).map fun k =>
    BitVec.ofNat 64 ((w % 2 ^ nbits) >>> (64 * k))

/-- The command the decoder reads from an instruction whose bits are `w` (the numbering of
spec/opcode_table.json: bit 0 is the least significant bit of the header beat). -/
def decodeTableWord (nbits w : Nat) : Option Instr :=
  match decode (tableBeats nbits w) with
  | .frame i _ => some i
  | .illegal _ _ => none
  | .incomplete => none

/-- The beats of one frame of `tableBeats`, cut after the frame's last beat; of an illegal header, that beat. -/
def tableFrame (nbits w : Nat) : List Word :=
  match decode (tableBeats nbits w) with
  | .frame i _ => (tableBeats nbits w).take (1 + i.scalar.length + i.vector.length)
  | .illegal _ _ => (tableBeats nbits w).take 1
  | .incomplete => tableBeats nbits w

end Sys2Proof
end

