-- ==== Sys2Proof/Machine/State.lean ====
section
/-! DEFINITION. The state of the BITPACK core as plain data (10_state.md R10), with the ports and the
environment's choices that 10_state.md R27 calls inputs of its step; the reasons a step can stop; the machine
right after reset. -/

namespace Sys2Proof.Machine

/-- Storage as a list of (word address, word) pairs (20_memory.md R30, R35: the one address space is word
addressed). Canonical form: addresses strictly rising, no entry equal to `blankWord` (logs 5, 6). -/
abbrev Memory := List (Nat × Word)

/-- What an unlisted word of storage reads as: 0, the contents construction gives every owned word
(10_state.md R22). DESIGN CHOICE where no constructor has run (log 5). -/
def blankWord : Word := 0

/-- The snapshot source (44_snapshot.md R115): an environment's byte sequence and its failures. -/
structure Source where
  /-- The byte sequence the medium holds. -/
  bytes : List Byte
  /-- The position in it: `SrcRead` delivers the bytes from here on. -/
  pos : Nat
  /-- The environment's schedule of failures: after as many more delivered bytes as the head says the medium
  fails once, then the next entry counts. Empty: it never fails. -/
  stops : List Nat
  /-- How many bytes completed `SrcRead` calls have delivered. -/
  taken : Nat
  /-- The source answers `SrcRead`; where it does not, the core is stuck there (93_implementation_defined.md S6). -/
  ready : Bool
deriving DecidableEq, Repr

/-- The snapshot sink (44_snapshot.md R115): what it has accepted, and its failures. -/
structure Sink where
  /-- The bytes accepted so far, in order. -/
  got : List Byte
  /-- The environment's schedule of failures: after as many more accepted bytes as the head says the sink fails
  once, then the next entry counts. Empty: it never fails. -/
  stops : List Nat
  /-- The sink answers `SnkWrite`; where it does not, the core is stuck there (93_implementation_defined.md S6). -/
  ready : Bool
deriving DecidableEq, Repr

/-- The reset input (70_reset_and_hazards.md R160, R161). -/
inductive ResetPin where
  /-- Not asserted. -/
  | released
  /-- Asserted in the command the core would now run, after that command has moved `moved` bytes on the snapshot
  ports, or all of its bytes where it moves fewer (the environment's draw; 0 where reset comes between two
  commands). -/
  | asserted (moved : Nat)
deriving DecidableEq, Repr

/-- A command that is stuck at its first access to a snapshot port that does not answer
(93_implementation_defined.md S6). -/
inductive Held where
  /-- LDU, at its first `SrcRead`. -/
  | ldu
  /-- LDM, at its first `SrcRead`. -/
  | ldm
  /-- DUMP, at its first `SnkWrite`. -/
  | dump
deriving DecidableEq, Repr

/-- The whole state. The first eight fields are the architectural state of 10_state.md R10; the others are the
parameters, the ports and the reset input (10_state.md R27), what the core holds of a command that is stuck at a port
(10_state.md R26), and the model's draw counter. -/
structure State where
  /-- `VALID`: a container exists (10_state.md R11). -/
  valid : Bool
  /-- `FAULT`: 0x00 while running, the fault's code once halted (10_state.md R12). -/
  fault : BitVec 8
  /-- `MODE` (10_state.md R13). -/
  mode : Mode
  /-- `NF`: the number of fields per record (10_state.md R14). -/
  nf : BitVec 8
  /-- `FW[0..NF_MAX-1]`: the width register file (10_state.md R15). -/
  fw : List (BitVec 7)
  /-- `RB`: the record width (10_state.md R16). -/
  rb : BitVec 14
  /-- `NW`: the number of storage words the container owns (10_state.md R17). -/
  nw : BitVec 58
  /-- `MEM`: the storage (10_state.md R20). -/
  mem : Memory
  /-- The open parameters `NF_MAX` and `NW_MAX` (00_scope.md R7). -/
  cfg : Params
  /-- The beats on the command port that the core has not consumed with a whole frame (30_encoding.md R45). -/
  cmd : List Word
  /-- The beats on the response port that the host has not taken, oldest first (30_encoding.md R46). -/
  rsp : List Word
  /-- How many more response beats the host takes before it stops taking them, `none` where it takes every beat, as
  it is assumed to; a core with a beat more to send is stuck at that `RspBeat` (30_encoding.md R46; log 11). -/
  rspRoom : Option Nat
  /-- The MODEL's own (a working value, 10_state.md R26): the beats of a response that the core has still to send,
  none where it is not stuck at `RspBeat` (30_encoding.md R46; log 11). -/
  unsent : List Word
  /-- The MODEL's own (a working value, 10_state.md R26): the command that is stuck at a snapshot port, `none` where
  no command is (93_implementation_defined.md S6; logs 12, 14). -/
  held : Option Held
  /-- The snapshot source (44_snapshot.md R115). -/
  src : Source
  /-- The snapshot sink (44_snapshot.md R115). -/
  snk : Sink
  /-- The reset input (70_reset_and_hazards.md R160). -/
  rst : ResetPin
  /-- The MODEL's own: how many unspecified values have been drawn (log 4). -/
  draws : Nat
deriving DecidableEq, Repr

/-- Why the machine takes no step. A command that raises one of the spec's faults is not here: it takes a next
state with `FAULT` written (60_exceptions.md R141; log 17). -/
inductive Fault where
  /-- Raised by `step` when `FAULT` is not 0x00: "A model should make the halted state one from which the core has
  no step" (60_exceptions.md R141; 93_implementation_defined.md S5, `stuck`). Safe. -/
  | halted
  /-- Raised by `step` when the command port holds no whole frame and no illegal header: the core waits in
  `CmdBeat()` (30_encoding.md R58; 93_implementation_defined.md S6, `stuck`). Safe. -/
  | waitingForBeat
  /-- Raised by `step` when the core has response beats to send and the host takes none: "a host that stops taking
  beats stalls the core at the `RspBeat`" (30_encoding.md R46; 93_implementation_defined.md S6, `stuck`). The
  command's effects are done by then. Safe. -/
  | waitingForResponse
  /-- Raised by `step` while LDU or LDM is stuck at its first `SrcRead` and the source still does not answer
  (93_implementation_defined.md S6, `stuck`). Safe. -/
  | waitingForSource
  /-- Raised by `step` while DUMP is stuck at its first `SnkWrite` and the sink still does not answer
  (93_implementation_defined.md S6, `stuck`). Safe. -/
  | waitingForSink
  /-- Raised by SET and GET if a storage access had an address at or above `NW`: unreachable by
  41_address_generation.md R86, and "a fault, never a value" (20_memory.md R31). Safe. -/
  | storageAddress
deriving DecidableEq, Repr

/-- Why an instruction has no meaning in a state. -/
inductive Refusal where
  /-- Raised by `exec` for an instruction without a meaning; no arm of this model raises it. Safe. -/
  | notModelled (mnemonic : String)
  /-- Raised by SET and GET in a state whose width registers hold a value above 64, where the combinators are
  undefined (40_combinators.md R65; 93_implementation_defined.md S4, `refuse`); no container has such a width
  (10_state.md R19 c). Safe. -/
  | widthOutOfDomain
deriving DecidableEq, Repr

/-- The machine right after reset, for an implementation with parameters `c`: `VALID = 0`, `FAULT = 0x00`
(10_state.md R28, 70_reset_and_hazards.md R160), both beat ports empty (R161), no command in progress (R26, R161).
The other registers' values are
DESIGN CHOICE (log 2, unsafe), the ports those of an environment that answers and offers nothing (logs 11, 12,
14). -/
def State.resetWith (c : Params) : State :=
  { valid := false
    fault := 0x00#8
    mode := .uniform
    nf := 0#8
    fw := List.replicate c.nfMax 0#7
    rb := 0#14
    nw := 0#58
    mem := []
    cfg := c
    cmd := []
    rsp := []
    rspRoom := none
    unsent := []
    held := none
    src := { bytes := [], pos := 0, stops := [], taken := 0, ready := true }
    snk := { got := [], stops := [], ready := true }
    rst := .released
    draws := 0 }

/-- The machine right after reset, with the parameter values of the spec's test vectors (00_scope.md R7; log 1). -/
def State.reset : State := State.resetWith Params.vectors

end Sys2Proof.Machine
end

