-- ==== Sys2Proof/Machine/Operands.lean ====
section
/-! DEFINITION. The bit-mask and shift combinators (40_combinators.md R65 to R76) and the address generator
(41_address_generation.md R80 to R89), with the sizing formulas of 42_configuration.md R91 and R95. -/

namespace Sys2Proof.Machine

/-- `MASK(w) = 2^w - 1` for `w <= 64` (40_combinators.md R65). Undefined above: a free value (log 16). -/
def mask (w : Nat) : Word :=
  if w ≤ 64 then BitVec.ofNat 64 (2 ^ w - 1) else Config.maskOutside w

/-- `SHL(x, s)`, logical left shift, for `s <= 63` (40_combinators.md R66, R75). -/
def shl (x : Word) (s : Nat) : Word :=
  if s < 64 then x <<< s else Config.shlOutside x s

/-- `SHR(x, s)`, logical right shift, for `s <= 63` (40_combinators.md R67, R75). -/
def shr (x : Word) (s : Nat) : Word :=
  if s < 64 then x >>> s else Config.shrOutside x s

/-- `EXTRACT(x, r, w)`, the `w`-bit field of `x` at bit `r` (40_combinators.md R68). -/
def extract (x : Word) (r w : Nat) : Word := shr x r &&& mask w

/-- `DEPOSIT(x, r, w, v)`, `x` with its `w`-bit field at bit `r` replaced (40_combinators.md R69). -/
def deposit (x : Word) (r w : Nat) (v : Word) : Word :=
  (x &&& ~~~(shl (mask w) r)) ||| shl (v &&& mask w) r

/-- `SPLIT_LO(v, lo)`, the low part of a crossing value (40_combinators.md R73). -/
def splitLo (v : Word) (lo : Nat) : Word := v &&& mask lo

/-- `SPLIT_HI(v, lo)`, the high part of a crossing value (40_combinators.md R73). -/
def splitHi (v : Word) (lo : Nat) : Word := shr v lo

/-- `JOIN(a, b, lo)`, a crossing value from its two parts (40_combinators.md R74). -/
def join (a b : Word) (lo : Nat) : Word := a ||| shl b lo

/-- The loop of 40_combinators.md R70, "repeated right-shift-and-count", with `fuel` turns at most. -/
def bitWidthLoop : Nat → Word → Nat
  | 0, _ => 0
  | fuel + 1, m => if m = 0 then 0 else bitWidthLoop fuel (shr m 1) + 1

/-- `BITWIDTH(m)` (40_combinators.md R70); 64 turns empty any word. -/
def bitWidth (m : Word) : Nat := bitWidthLoop 64 m

/-- `ceil_div(a, b)` (00_scope.md R8). -/
def ceilDiv (a b : Nat) : Nat := (a + b - 1) / b

/-- The number of storage words construction asks for, `max(1, ceil_div(capacityHint * RB, 64))`, on unbounded
naturals (42_configuration.md R91). -/
def storageWords (capacityHint rb : Nat) : Nat := max 1 (ceilDiv (capacityHint * rb) 64)

/-- `CAP_UNBOUNDED`, the capacity when `RB = 0` (00_scope.md R7, 42_configuration.md R95). -/
def capUnbounded : Nat := 2 ^ 64 - 1

/-- The capacity of `nw` words of records of `rb` bits (42_configuration.md R95). -/
def capacity (nw rb : Nat) : Nat := if rb = 0 then capUnbounded else nw * 64 / rb

/-- `OFF(n, i) = n * RB + Σ_{j<i} FW[j]` on unbounded naturals (41_address_generation.md R80, R81). -/
def off (widths : List Nat) (rb n i : Nat) : Nat := n * rb + (widths.take i).sum

/-- The word address of a bit offset, `b div 64` (41_address_generation.md R82). -/
def wordOf (b : Nat) : Nat := b / 64

/-- The intra-word offset of a bit offset, `b mod 64` (41_address_generation.md R82). -/
def bitOf (b : Nat) : Nat := b % 64

/-- `ADVANCE(p, r, w)`, the cursor after a field of width `w` (41_address_generation.md R83; 90_conflicts.md C3). -/
def advance (p r w : Nat) : Nat × Nat :=
  if r + w < 64 then (p, r + w) else (p + 1, r + w - 64)

/-- The cursor at field `i` of a record, stepped from the record's start (41_address_generation.md R83). -/
def cursorAt (p r : Nat) : List Nat → Nat × Nat
  | [] => (p, r)
  | w :: ws => cursorAt (advance p r w).1 (advance p r w).2 ws

/-- The three cases of 41_address_generation.md R84. -/
inductive FieldCase where
  /-- `w = 0`: nothing is read or written. -/
  | zeroWidth
  /-- `w >= 1` and `r + w <= 64`: word `p`. -/
  | nonCrossing
  /-- `r + w > 64`: words `p` and `p + 1`. -/
  | crossing
deriving DecidableEq, Repr

/-- The case the engine chooses from `r` and `w` alone (41_address_generation.md R84). -/
def fieldCase (r w : Nat) : FieldCase :=
  if w = 0 then .zeroWidth else if r + w ≤ 64 then .nonCrossing else .crossing

/-- `INRANGE(n)`: `(n + 1) * RB <= 64 * NW` on unbounded naturals (41_address_generation.md R85). -/
abbrev inRange (rb nw n : Nat) : Prop := (n + 1) * rb ≤ 64 * nw

end Sys2Proof.Machine
end

