-- ==== Sys2Proof/Machine/Flags.lean ====
section
/-! DEFINITION. The core's status: the status codes of 30_encoding.md R53 and 60_exceptions.md R136, the response
header, and the two status outputs of 10_state.md R24. No command sets a flag as an arithmetic side effect
(40_combinators.md R76). -/

namespace Sys2Proof.Machine

/-- The eight status values; no other code is ever produced (30_encoding.md R53). -/
inductive Status where
  | ok | ioError | formatError | resourceError
  | illegalCommand | noContainer | argCount | indexRange
deriving DecidableEq, Repr

/-- The status code, bits 63:56 of a response header (30_encoding.md R53). -/
def Status.code : Status → BitVec 8
  | .ok => 0x00#8
  | .ioError => 0x01#8
  | .formatError => 0x02#8
  | .resourceError => 0x03#8
  | .illegalCommand => 0x80#8
  | .noContainer => 0x81#8
  | .argCount => 0x82#8
  | .indexRange => 0x83#8

/-- Whether the status is a fault's: bit 7 of the code (30_encoding.md R53). -/
def Status.isFault (st : Status) : Bool := st.code.getLsbD 7

/-- The status's name (30_encoding.md R53). -/
def Status.name : Status → String
  | .ok => "OK"
  | .ioError => "IO_ERROR"
  | .formatError => "FORMAT_ERROR"
  | .resourceError => "RESOURCE_ERROR"
  | .illegalCommand => "ILLEGAL_COMMAND"
  | .noContainer => "NO_CONTAINER"
  | .argCount => "ARG_COUNT"
  | .indexRange => "INDEX_RANGE"

/-- The textual form of a response (30_encoding.md R56): the status's name, then the result beats in decimal. -/
def responseText (st : Status) (rs : List Word) : String :=
  match rs with
  | [] => "-> " ++ st.name
  | _ :: _ => "-> " ++ st.name ++ ": " ++ String.intercalate ", " (rs.map fun x => toString x.toNat)

/-- A response header beat, `status * 2^56 + n * 2^48` (30_encoding.md R53, R55). -/
def rspHeader (st : Status) (n : Nat) : Word := headerWord st.code.toNat n

/-- The status output `st_valid` (10_state.md R24). -/
def State.stValid (s : State) : Bool := s.valid

/-- The status output `st_fault` (10_state.md R24). -/
def State.stFault (s : State) : BitVec 8 := s.fault

/-- The core is halted: `FAULT` is not 0x00 (60_exceptions.md R141). -/
abbrev State.Halted (s : State) : Prop := s.fault ≠ 0x00#8

end Sys2Proof.Machine
end

