-- ==== Sys2Proof/Machine/Memory.lean ====
section
/-! DEFINITION. Storage: one word read and written, in one canonical form (20_memory.md R30 to R37; logs 5, 6). -/

namespace Sys2Proof.Machine

/-- The word at address `p`. -/
def Memory.read : Memory → Nat → Word
  | [], _ => blankWord
  | (q, x) :: m, p => if p = q then x else Memory.read m p

/-- Storage with the word at address `p` replaced by `v`, in canonical form when `m` is. -/
def Memory.write : Memory → Nat → Word → Memory
  | [], p, v => if v = blankWord then [] else [(p, v)]
  | (q, x) :: m, p, v =>
    if p < q then (if v = blankWord then (q, x) :: m else (p, v) :: (q, x) :: m)
    else if p = q then (if v = blankWord then m else (p, v) :: m)
    else (q, x) :: Memory.write m p v

/-- The canonical form: addresses strictly rising, and no entry equal to what an unlisted word reads as. -/
abbrev Memory.wf (m : Memory) : Prop :=
  m.Pairwise (fun a b => a.1 < b.1) ∧ ∀ c ∈ m, c.2 ≠ blankWord

/-- Blank storage with a list of writes done in order. -/
def Memory.ofCells (cells : List (Nat × Word)) : Memory :=
  cells.foldl (fun m c => Memory.write m c.1 c.2) []

/-- `MemRead(p, 64)` of a container of `nw` words: defined for `p < nw` only (20_memory.md R31). -/
def memRead (nw : Nat) (m : Memory) (p : Nat) : Option Word :=
  if p < nw then some (m.read p) else none

/-- `MemWrite(p, 64, v)` of a container of `nw` words: defined for `p < nw` only (20_memory.md R31). -/
def memWrite (nw : Nat) (m : Memory) (p : Nat) (v : Word) : Option Memory :=
  if p < nw then some (m.write p v) else none

end Sys2Proof.Machine
end

