-- ==== Sys2Proof/Machine/Ports.lean ====
section
/-! DEFINITION. The snapshot ports (44_snapshot.md R115) and the byte order of the snapshot stream
(20_memory.md R38). -/

namespace Sys2Proof.Machine

/-- `le64(v)`: the 8 bytes of `v`, least significant first (20_memory.md R38; log 18). -/
def le64 (v : Word) : List Byte := (List.range 8).map fun k => v.extractLsb' (8 * k) 8

/-- The number whose bytes, least significant first, are given: `Σ_k b_k * 2^(8k)` (20_memory.md R38). -/
def fromLe : List Byte → Nat
  | [] => 0
  | b :: bs => b.toNat + 256 * fromLe bs

/-- `from_le64(b)`, the inverse of `le64` (20_memory.md R38). -/
def fromLe64 (bs : List Byte) : Word := BitVec.ofNat 64 (fromLe bs)

/-- A failure schedule lets `k` more bytes pass. -/
def stopsAllow (stops : List Nat) (k : Nat) : Bool :=
  match stops with
  | [] => true
  | r :: _ => decide (k ≤ r)

/-- A failure schedule after `k` bytes that it let pass. -/
def stopsAfter (stops : List Nat) (k : Nat) : List Nat :=
  match stops with
  | [] => []
  | r :: rs => (r - k) :: rs

/-- The source after `k` bytes have been taken from it. -/
def Source.advance (src : Source) (k : Nat) : Source :=
  { src with pos := src.pos + k, stops := stopsAfter src.stops k, taken := src.taken + k }

/-- `SrcRead(k)`: the next `k` bytes, or `none` for `short`, when the medium fails or fewer remain
(44_snapshot.md R115). The position after `short` is settled where the load fails (log 13). -/
def Source.read (src : Source) (k : Nat) : Source × Option (List Byte) :=
  if stopsAllow src.stops k then
    if src.pos + k ≤ src.bytes.length then (src.advance k, some ((src.bytes.drop src.pos).take k))
    else (src, none)
  else ({ src with stops := src.stops.tail }, none)

/-- The sink after it has accepted `b`. -/
def Sink.accept (snk : Sink) (b : List Byte) : Sink :=
  { snk with got := snk.got ++ b, stops := stopsAfter snk.stops b.length }

/-- `SnkWrite(b)`: accepted whole, `true`; or `false`, having accepted the prefix of `b` that the environment's
schedule leaves (44_snapshot.md R115, R119). -/
def Sink.write (snk : Sink) (b : List Byte) : Sink × Bool :=
  if stopsAllow snk.stops b.length then (snk.accept b, true)
  else ({ snk with got := snk.got ++ b.take (snk.stops.headD 0), stops := snk.stops.tail }, false)

end Sys2Proof.Machine
end

