-- ==== Sys2Proof/Machine/Ops.lean ====
section
/-! DEFINITION. The named operations over the state: sending a response, taking a fault, reset, a command stuck
at a port, dropping and installing a container, and what the commands read of a container. -/

namespace Sys2Proof.Machine

/-- Storage replaced, nothing else. -/
def State.withMem (s : State) (m : Memory) : State := { s with mem := m }

/-- The snapshot source replaced, nothing else. -/
def State.withSrc (s : State) (src : Source) : State := { s with src := src }

/-- The snapshot sink replaced, nothing else. -/
def State.withSnk (s : State) (snk : Sink) : State := { s with snk := snk }

/-- The beats of the command port replaced, nothing else. -/
def State.withCmd (s : State) (cmd : List Word) : State := { s with cmd := cmd }

/-- How many response beats the host will take, nothing else. -/
def State.withRspRoom (s : State) (room : Option Nat) : State := { s with rspRoom := room }

/-- The command stuck at a snapshot port replaced, nothing else. -/
def State.withHeld (s : State) (held : Option Held) : State := { s with held := held }

/-- `return Status(st)` with result beats `rs`: one response frame, a header whose count is the number of result
beats, then the beats (30_encoding.md R53, R54). -/
def State.respond (s : State) (st : Status) (rs : List Word) : State :=
  { s with rsp := s.rsp ++ rspHeader st rs.length :: rs }

/-- `FAULT <- code` (10_state.md R12). -/
def State.withFault (s : State) (code : BitVec 8) : State := { s with fault := code }

/-- `raise Fault(code)` (60_exceptions.md R141): every register and storage word stays, `FAULT` gets the code, a
response frame with that status and no result beats is sent (30_encoding.md R55), and the core is halted, since
`FAULT` is not 0x00. Taking the fault is a next state (log 17). -/
def raiseFault (code : Status) (s : State) : Host.Outcome State Fault Refusal :=
  .next ((s.withFault code.code).respond code [])

/-- The container is gone: `VALID <- 0`, and the registers and storage that are unspecified without a container
(10_state.md R28) hold a fresh draw of free values (log 3). -/
def State.dropContainer (s : State) : State :=
  { s with
    valid := false
    mode := (Config.unspecified s.draws).mode
    nf := (Config.unspecified s.draws).nf
    fw := (List.range s.cfg.nfMax).map fun i => (Config.unspecified s.draws).fw.getD i 0#7
    rb := (Config.unspecified s.draws).rb
    nw := (Config.unspecified s.draws).nw
    mem := Memory.ofCells (Config.unspecified s.draws).cells
    draws := s.draws + 1 }

/-- A constructor command ends with an error status: no container, the core goes on (42_configuration.md R97,
44_snapshot.md R128). -/
def State.failConstructor (s : State) (st : Status) : State := (s.dropContainer).respond st []

/-- The registers a constructor writes when it succeeds (42_configuration.md R90, 44_snapshot.md R121): `MODE`,
`NF`, `FW[0..NF-1]`, `RB = Σ FW`, `NW`, the owned words, and last `VALID <- 1`. The other width registers keep
their value (10_state.md R15). -/
def State.install (s : State) (mode : Mode) (widths : List Nat) (nw : Nat) (m : Memory) : State :=
  { s with
    valid := true
    mode := mode
    nf := BitVec.ofNat 8 widths.length
    fw := widths.map (BitVec.ofNat 7) ++ s.fw.drop widths.length
    rb := BitVec.ofNat 14 widths.sum
    nw := BitVec.ofNat 58 nw
    mem := m }

/-- The widths of the container's fields, `FW[0]` to `FW[NF-1]` (10_state.md R15). -/
def State.widths (s : State) : List Nat := (s.fw.take s.nf.toNat).map BitVec.toNat

/-- The container's record `n` lies in its storage (41_address_generation.md R85). -/
abbrev State.InRange (s : State) (n : Nat) : Prop := inRange s.rb.toNat s.nw.toNat n

/-- Every width register of the container holds 0 to 64 (10_state.md R19 c). -/
abbrev State.WidthsLegal (s : State) : Prop := ∀ w ∈ s.widths, w ≤ 64

/-- The header of the snapshot: of `MODE = 0`, the width byte and the word count (44_snapshot.md R117); of
`MODE = 1`, the field count, the word count and the width bytes (R118). -/
def State.snapshotHeader (s : State) : List Byte :=
  match s.mode with
  | .uniform => (s.fw.getD 0 0#7).setWidth 8 :: le64 (s.nw.setWidth 64)
  | .multi =>
    le64 (s.nf.setWidth 64) ++ le64 (s.nw.setWidth 64) ++ (s.fw.take s.nf.toNat).map (BitVec.setWidth 8)

/-- The storage words of the snapshot from address `k` on, `n` of them, each little-endian (44_snapshot.md R117,
R118, R120). -/
def wordBytes (m : Memory) : Nat → Nat → List Byte
  | _, 0 => []
  | k, n + 1 => le64 (m.read k) ++ wordBytes m (k + 1) n

/-- `SNAPSHOT()` (44_snapshot.md R120). -/
def State.snapshot (s : State) : List Byte := s.snapshotHeader ++ wordBytes s.mem 0 s.nw.toNat

/-- What reset does to the core (70_reset_and_hazards.md R160, R161; 60_exceptions.md R147), the one way out of a
fault: `VALID = 0`, `FAULT = 0x00`, the container unspecified, both beat ports emptied, the input released. The
source and the sink stay as they are: "The snapshot source and sink are not touched by reset". No working value
survives (10_state.md R26): a command that was stuck is abandoned, with the response it had not sent. -/
def State.afterReset (s : State) : State :=
  { s.dropContainer with fault := 0x00#8, cmd := [], rsp := [], unsent := [], held := none, rst := .released }

/-- The response beats that a turn from `s` to `t` produced, where the host takes `k` beats more: those stand on the
response port and the others are still to be sent, and everything else the turn has done stays done ("changes nothing
else", 30_encoding.md R46; log 11). -/
def State.holdBack (s t : State) (k : Nat) : State :=
  { t with
    rsp := s.rsp ++ (t.rsp.drop s.rsp.length).take k
    unsent := (t.rsp.drop s.rsp.length).drop k
    rspRoom := some (k - (t.rsp.drop s.rsp.length).length) }

/-- What a turn from `s` to `t` has sent, by what the host takes (30_encoding.md R46). -/
def State.emit (s t : State) : State :=
  match s.rspRoom with
  | none => t
  | some k => s.holdBack t k

/-- The beats that were still to be sent are sent (30_encoding.md R46). -/
def State.send (s : State) : State := { s with rsp := s.rsp ++ s.unsent, unsent := [] }

/-- `LOAD` up to a first `SrcRead` that the source does not answer, and DUMP up to its first `SnkWrite`: a load has
dropped the container by then, `VALID <- 0` (44_snapshot.md R121, R128; 70_reset_and_hazards.md R167). That `st_valid`
shows this 0 while the load waits, so that the "no state change" of 93_implementation_defined.md S6 speaks of the
wait alone, is the model's reading: DEDUCED (logs 12, 14). -/
def State.hold (s : State) (h : Held) : State :=
  match h with
  | .ldu => s.dropContainer.withHeld (some h)
  | .ldm => s.dropContainer.withHeld (some h)
  | .dump => s.withHeld (some h)

/-- The snapshot port that a stuck command waits for answers again. -/
def State.answers (s : State) : Held → Bool
  | .ldu => s.src.ready
  | .ldm => s.src.ready
  | .dump => s.snk.ready

/-- The name of the stop of a stuck command (93_implementation_defined.md S6). -/
def Held.stop : Held → Fault
  | .ldu => .waitingForSource
  | .ldm => .waitingForSource
  | .dump => .waitingForSink

/-- The core waits for beats, runs a command, or meets an illegal header (30_encoding.md R58). -/
def State.fetch (s : State) : Decoded := decode s.cmd

end Sys2Proof.Machine
end

