-- ==== Sys2Proof/Machine/Combinators.lean ====
section
/-! DEFINITION. The command of 40_combinators.md: BITW. -/

namespace Sys2Proof.Machine

/-- BITW (40_combinators.md R71): the width of `maxValue`, with or without a container. -/
def execBitw (maxValue : Word) (s : State) : Host.Outcome State Fault Refusal :=
  .next (s.respond .ok [BitVec.ofNat 64 (bitWidth maxValue)])

end Sys2Proof.Machine
end

