-- ==== Sys2Proof/Machine/Configuration.lean ====
section
/-! DEFINITION. The commands of 42_configuration.md: CFGU, CFGM, CAP. -/

namespace Sys2Proof.Machine

/-- `CONSTRUCT(mode, cap, n, v)` (42_configuration.md R90, R91, R97): widths from the hints, storage for the
capacity hint, all owned words zero (10_state.md R22: blank storage). -/
def construct (mode : Mode) (capacityHint : Word) (hints : List Word) (s : State) : State :=
  let widths := hints.map bitWidth
  let need := storageWords capacityHint.toNat widths.sum
  if hints.length > s.cfg.nfMax then s.failConstructor .resourceError
  else if need > s.cfg.nwMax then s.failConstructor .resourceError
  else (s.install mode widths need []).respond .ok []

/-- CFGU (42_configuration.md R93): `CONSTRUCT(0, cap, 1, v)`. -/
def execCfgu (capacityHint hint : Word) (s : State) : Host.Outcome State Fault Refusal :=
  .next (construct .uniform capacityHint [hint] s)

/-- CFGM (42_configuration.md R94): `CONSTRUCT(1, cap, n, v)`. -/
def execCfgm (capacityHint : Word) (hints : List Word) (s : State) : Host.Outcome State Fault Refusal :=
  .next (construct .multi capacityHint hints s)

/-- CAP (42_configuration.md R95): the number of records the storage can hold, or the sentinel when `RB = 0`. -/
def execCap (s : State) : Host.Outcome State Fault Refusal :=
  if s.valid = false then raiseFault .noContainer s
  else .next (s.respond .ok [BitVec.ofNat 64 (capacity s.nw.toNat s.rb.toNat)])

end Sys2Proof.Machine
end

