-- ==== Sys2Proof/Machine/FieldAccess.lean ====
section
/-! DEFINITION. The field-boundary-crossing read and write engine (43_field_access.md) and its commands: SET, GET. -/

namespace Sys2Proof.Machine

/-- `WRITE_NC(p, r, w, v)`, the non-crossing write (43_field_access.md R102). -/
def writeNC (nw : Nat) (m : Memory) (p r w : Nat) (v : Word) : Option Memory :=
  match memRead nw m p with
  | none => none
  | some x => memWrite nw m p (deposit x r w v)

/-- `WRITE_X(p, r, w, v)`, the crossing write (43_field_access.md R103). -/
def writeX (nw : Nat) (m : Memory) (p r w : Nat) (v : Word) : Option Memory :=
  let lo := 64 - r
  let hi := w - lo
  let t := v &&& mask w
  match memRead nw m p with
  | none => none
  | some x0 =>
    match memWrite nw m p (deposit x0 r lo (splitLo t lo)) with
    | none => none
    | some m1 =>
      match memRead nw m1 (p + 1) with
      | none => none
      | some x1 => memWrite nw m1 (p + 1) (deposit x1 0 hi (splitHi t lo))

/-- One field written, by the case of 41_address_generation.md R84; a field of width 0 makes no access
(43_field_access.md R104). -/
def writeField (nw : Nat) (m : Memory) (p r w : Nat) (v : Word) : Option Memory :=
  match fieldCase r w with
  | .zeroWidth => some m
  | .nonCrossing => writeNC nw m p r w v
  | .crossing => writeX nw m p r w v

/-- The loop of SET over the fields of one record, each with its width and value, the cursor stepped by `ADVANCE`
(43_field_access.md R100). -/
def writeFields (nw : Nat) : List (Nat × Word) → Nat → Nat → Memory → Option Memory
  | [], _, _, m => some m
  | (w, v) :: fs, p, r, m =>
    match writeField nw m p r w v with
    | none => none
    | some m' => writeFields nw fs (advance p r w).1 (advance p r w).2 m'

/-- `READ_NC(p, r, w)`, the non-crossing read (43_field_access.md R107). -/
def readNC (nw : Nat) (m : Memory) (p r w : Nat) : Option Word :=
  match memRead nw m p with
  | none => none
  | some x => some (extract x r w)

/-- `READ_X(p, r, w)`, the crossing read (43_field_access.md R108). -/
def readX (nw : Nat) (m : Memory) (p r w : Nat) : Option Word :=
  let lo := 64 - r
  let hi := w - lo
  match memRead nw m p with
  | none => none
  | some x0 =>
    match memRead nw m (p + 1) with
    | none => none
    | some x1 => some (join (shr x0 r) (x1 &&& mask hi) lo &&& mask w)

/-- One field read, by the case of 41_address_generation.md R84; a field of width 0 reads as 0 without an access
(43_field_access.md R109). -/
def readField (nw : Nat) (m : Memory) (p r w : Nat) : Option Word :=
  match fieldCase r w with
  | .zeroWidth => some 0
  | .nonCrossing => readNC nw m p r w
  | .crossing => readX nw m p r w

/-- The loop of GET over the fields of one record (43_field_access.md R106). -/
def readFields (nw : Nat) (m : Memory) : List Nat → Nat → Nat → Option (List Word)
  | [], _, _ => some []
  | w :: ws, p, r =>
    match readField nw m p r w with
    | none => none
    | some q =>
      match readFields nw m ws (advance p r w).1 (advance p r w).2 with
      | none => none
      | some qs => some (q :: qs)

/-- Storage after the fields of record `idx` have been written: the cursor starts at `idx * RB`
(43_field_access.md R100, 41_address_generation.md R83). -/
def State.writeRecord (s : State) (idx : Nat) (values : List Word) : Option Memory :=
  writeFields s.nw.toNat (s.widths.zip values) (wordOf (idx * s.rb.toNat)) (bitOf (idx * s.rb.toNat)) s.mem

/-- The fields of record `idx` (43_field_access.md R106, 41_address_generation.md R83). -/
def State.readRecord (s : State) (idx : Nat) : Option (List Word) :=
  readFields s.nw.toNat s.mem s.widths (wordOf (idx * s.rb.toNat)) (bitOf (idx * s.rb.toNat))

/-- SET (43_field_access.md R100): the three tests in order, each before any access, then every field of the
record. -/
def execSet (index : Word) (values : List Word) (s : State) : Host.Outcome State Fault Refusal :=
  if s.valid = false then raiseFault .noContainer s
  else if values.length ≠ s.nf.toNat then raiseFault .argCount s
  else if ¬ s.InRange index.toNat then raiseFault .indexRange s
  else if ¬ s.WidthsLegal then .refused .widthOutOfDomain
  else
    match s.writeRecord index.toNat values with
    | none => .fault .storageAddress
    | some m => .next ((s.withMem m).respond .ok [])

/-- GET (43_field_access.md R106): the two tests in order, then one result beat for every field. -/
def execGet (index : Word) (s : State) : Host.Outcome State Fault Refusal :=
  if s.valid = false then raiseFault .noContainer s
  else if ¬ s.InRange index.toNat then raiseFault .indexRange s
  else if ¬ s.WidthsLegal then .refused .widthOutOfDomain
  else
    match s.readRecord index.toNat with
    | none => .fault .storageAddress
    | some qs => .next (s.respond .ok qs)

end Sys2Proof.Machine
end

