-- ==== Sys2Proof/Machine/Snapshot.lean ====
section
/-! DEFINITION. The snapshot unit (44_snapshot.md) and its commands: DUMP, LDU, LDM. -/

namespace Sys2Proof.Machine

/-- The loop of DUMP: `n` words from address `k` on, one `SnkWrite` each, stopping at the first failure
(44_snapshot.md R116, R119). The addresses are below `NW`, so `MemRead` is defined (20_memory.md R31). -/
def dumpWords (m : Memory) : Nat → Nat → Sink → Sink × Bool
  | _, 0, snk => (snk, true)
  | k, n + 1, snk =>
    match snk.write (le64 (m.read k)) with
    | (snk', false) => (snk', false)
    | (snk', true) => dumpWords m (k + 1) n snk'

/-- The writes of DUMP: the header, then the words (44_snapshot.md R116). -/
def State.dumpTo (s : State) : Sink × Bool :=
  match s.snk.write s.snapshotHeader with
  | (snk', false) => (snk', false)
  | (snk', true) => dumpWords s.mem 0 s.nw.toNat snk'

/-- DUMP (44_snapshot.md R116): the snapshot to the sink; IO_ERROR when the sink fails (R119); held at its first
`SnkWrite`, with nothing done, where the sink does not answer (93_implementation_defined.md S6; log 14). -/
def execDump (s : State) : Host.Outcome State Fault Refusal :=
  if s.valid = false then raiseFault .noContainer s
  else if s.snk.ready = false then .next (s.hold .dump)
  else
    match s.dumpTo with
    | (snk, true) => .next ((s.withSnk snk).respond .ok [])
    | (snk, false) => .next ((s.withSnk snk).respond .ioError [])

/-- What a load has when the header is read: the field widths as declared, and the word count (44_snapshot.md
R121, steps 1 and 2). -/
structure LoadHeader where
  /-- The width bytes, in field order. -/
  widths : List Nat
  /-- The declared word count. -/
  words : Nat
deriving DecidableEq, Repr

/-- Steps 1 of `LOAD(0)`: the width byte, the word count (44_snapshot.md R121, R117). -/
def readUniformHeader (src : Source) : Source × Except Status LoadHeader :=
  match src.read 1 with
  | (src1, none) => (src1, .error .ioError)
  | (src1, some b) =>
    match src1.read 8 with
    | (src2, none) => (src2, .error .ioError)
    | (src2, some c) => (src2, .ok { widths := b.map BitVec.toNat, words := (fromLe64 c).toNat })

/-- Step 2 of `LOAD(1)`, the width bytes of `nf` fields; none is asked for when there are none (44_snapshot.md
R121). -/
def readWidthBytes (src : Source) (nf : Nat) : Source × Option (List Byte) :=
  if nf = 0 then (src, some []) else src.read nf

/-- Steps 1 and 2 of `LOAD(1)`: the field count, the word count, the width bytes; a field count above `NF_MAX` is
refused before any width byte is read (44_snapshot.md R121, R118, R126). -/
def readMultiHeader (nfMax : Nat) (src : Source) : Source × Except Status LoadHeader :=
  match src.read 8 with
  | (src1, none) => (src1, .error .ioError)
  | (src1, some a) =>
    match src1.read 8 with
    | (src2, none) => (src2, .error .ioError)
    | (src2, some c) =>
      if (fromLe64 a).toNat > nfMax then (src2, .error .resourceError)
      else
        match readWidthBytes src2 (fromLe64 a).toNat with
        | (src3, none) => (src3, .error .ioError)
        | (src3, some bs) => (src3, .ok { widths := bs.map BitVec.toNat, words := (fromLe64 c).toNat })

/-- Step 5 of `LOAD`: `n` words from address `k` on into storage, `none` when the source comes short
(44_snapshot.md R121). -/
def readWords : Nat → Nat → Source → Memory → Source × Option Memory
  | _, 0, src, m => (src, some m)
  | k, n + 1, src, m =>
    match src.read 8 with
    | (src', none) => (src', none)
    | (src', some c) => readWords (k + 1) n src' (m.write k (fromLe64 c))

/-- A load ends with an error status: no container (44_snapshot.md R128), and the source's position is unspecified
(R115, R127): a free value of the same draw (log 13). -/
def State.failLoad (s : State) (src : Source) (st : Status) : State :=
  (s.withSrc { src with pos := (Config.unspecified s.draws).srcPos }).failConstructor st

/-- Steps 3 to 5 of `LOAD`, after the header: the width check, the word count check, the words
(44_snapshot.md R121, R125, R126). -/
def loadBody (mode : Mode) (h : LoadHeader) (src : Source) (s : State) : State :=
  if h.widths.any (fun w => decide (w > 64)) then s.failLoad src .formatError
  else if h.words > s.cfg.nwMax then s.failLoad src .resourceError
  else
    match readWords 0 h.words src [] with
    | (src', none) => s.failLoad src' .ioError
    | (src', some m) => ((s.withSrc src').install mode h.widths h.words m).respond .ok []

/-- `LOAD(mode)` (44_snapshot.md R121), with the header read by the format of the mode. -/
def load (mode : Mode) (header : Source × Except Status LoadHeader) (s : State) : State :=
  match header with
  | (src, .error st) => s.failLoad src st
  | (src, .ok h) => loadBody mode h src s

/-- LDU (44_snapshot.md R122): `LOAD(0)`; held at its first `SrcRead`, with `VALID` already 0 (R121), where the
source does not answer (93_implementation_defined.md S6). What `VALID` shows during that wait is the model's reading:
DEDUCED (log 12). -/
def execLdu (s : State) : Host.Outcome State Fault Refusal :=
  if s.src.ready = false then .next (s.hold .ldu)
  else .next (load .uniform (readUniformHeader s.src) s)

/-- LDM (44_snapshot.md R123): `LOAD(1)`; held at its first `SrcRead`, with `VALID` already 0 (R121), where the
source does not answer (93_implementation_defined.md S6). What `VALID` shows during that wait is the model's reading:
DEDUCED (log 12). -/
def execLdm (s : State) : Host.Outcome State Fault Refusal :=
  if s.src.ready = false then .next (s.hold .ldm)
  else .next (load .multi (readMultiHeader s.cfg.nfMax s.src) s)

end Sys2Proof.Machine
end

