-- ==== Sys2Proof/Machine/Dispatch.lean ====
section
/-! DEFINITION. One arm per command (30_encoding.md R49), each one call of the command's own meaning. -/

namespace Sys2Proof.Machine

def exec (i : Instr) (s : State) : Host.Outcome State Fault Refusal :=
  match i with
  | .bitw maxValue => Sys2Proof.Machine.execBitw maxValue s
  | .cfgu capacityHint hint => Sys2Proof.Machine.execCfgu capacityHint hint s
  | .cfgm capacityHint hints => Sys2Proof.Machine.execCfgm capacityHint hints s
  | .cap => Sys2Proof.Machine.execCap s
  | .set index values => Sys2Proof.Machine.execSet index values s
  | .get index => Sys2Proof.Machine.execGet index s
  | .dump => Sys2Proof.Machine.execDump s
  | .ldu => Sys2Proof.Machine.execLdu s
  | .ldm => Sys2Proof.Machine.execLdm s

end Sys2Proof.Machine
end

