-- ==== Sys2Proof/Machine/Cycle.lean ====
section
/-! DEFINITION. Command acceptance (30_encoding.md R58), a command that goes on after it was stuck at a port
(93_implementation_defined.md S6), and a reset that cuts a command off
(70_reset_and_hazards.md R161). Step.lean only chooses between the two. -/

namespace Sys2Proof.Machine

/-- The command that a stuck command is. -/
def Held.instr : Held → Instr
  | .ldu => .ldu
  | .ldm => .ldm
  | .dump => .dump

/-- A stuck command: it goes on once its port answers, and nothing changes until then
(93_implementation_defined.md S6). -/
def runHeld (h : Held) (s : State) : Host.Outcome State Fault Refusal :=
  if s.answers h then exec h.instr (s.withHeld none) else .fault h.stop

/-- Command acceptance (30_encoding.md R58): a whole frame is taken and its command runs; an illegal header is taken
alone and raises ILLEGAL_COMMAND (60_exceptions.md R137); otherwise the core waits and nothing changes. -/
def runFrame (s : State) : Host.Outcome State Fault Refusal :=
  match s.fetch with
  | .frame i rest => exec i (s.withCmd rest)
  | .illegal _ rest => raiseFault .illegalCommand (s.withCmd rest)
  | .incomplete => .fault .waitingForBeat

/-- The outcome of a turn from `s`: what it has sent stands on the response port as far as the host takes beats, its
other effects are the same whatever the host does (30_encoding.md R46). -/
def State.deliver (s : State) (o : Host.Outcome State Fault Refusal) : Host.Outcome State Fault Refusal :=
  match o with
  | .next t => .next (s.emit t)
  | .fault f => .fault f
  | .refused r => .refused r

/-- One turn of the core without reset. A core stuck at `RspBeat` sends what it has to send as far as the host takes
beats (30_encoding.md R46); a halted core does nothing (60_exceptions.md R141); a command stuck at a snapshot port goes
on; otherwise the core takes its next command (30_encoding.md R58). -/
def runCommand (s : State) : Host.Outcome State Fault Refusal :=
  if s.unsent ≠ [] then
    if s.rspRoom = some 0 then .fault .waitingForResponse else .next (s.emit s.send)
  else if s.Halted then .fault .halted
  else
    match s.held with
    | some h => s.deliver (runHeld h s)
    | none => s.deliver (runFrame s)

/-- How many bytes a command that took `s` to `t` took from the source in completed reads. -/
def bytesTaken (s t : State) : Nat := t.src.taken - s.src.taken

/-- The bytes a command that took `s` to `t` gave to the sink. -/
def bytesGiven (s t : State) : List Byte := t.snk.got.drop s.snk.got.length

/-- Reset, arriving when the command in progress, or the one the core would take now, has moved `moved` bytes
(70_reset_and_hazards.md R161; log 15): the command is abandoned, "the beats and bytes it has already moved on any
port stay moved", and the core is as reset leaves it. A `moved` above all the command's completed transfers is a reset
after the last of them: the source and the sink are as the whole command leaves them, an unspecified position after a
failed read included. Whether the host takes response beats does not matter to what the command has moved. -/
def State.resetDuring (s : State) (moved : Nat) : State :=
  match runCommand s with
  | .next t =>
    if moved ≤ bytesTaken s t + (bytesGiven s t).length then
      ((s.withSrc (s.src.advance (min moved (bytesTaken s t)))).withSnk
        (s.snk.accept ((bytesGiven s t).take moved))).afterReset
    else ((s.withSrc t.src).withSnk t.snk).afterReset
  | .fault _ => s.afterReset
  | .refused _ => s.afterReset

end Sys2Proof.Machine
end

