-- ==== Sys2Proof/Machine/Step.lean ====
section
/-! DEFINITION. The step: reset when its input is asserted ("Reset overrides everything", 60_exceptions.md R145),
else one command. And where a program's frames stand for the next step. -/

namespace Sys2Proof.Machine

/-- One step of the core: one command, or a reset. -/
def step (s : State) : Host.Outcome State Fault Refusal :=
  match s.rst with
  | .asserted moved => .next (s.resetDuring moved)
  | .released => runCommand s

/-- `s` with the frame of an opcode table word first on the command port, where the next step takes its command
from (log 10). -/
def State.withFetchWord (s : State) (nbits w : Nat) : State :=
  s.withCmd (tableFrame nbits w ++ s.cmd)

end Sys2Proof.Machine
end

