-- ==== Sys2Proof/Machine/HostPorts.lean ====
section
/-! DEFINITION. What the host can do to the core between two steps, through its ports alone (60_exceptions.md
R151; log 20). The step itself never calls this. -/

namespace Sys2Proof.Machine

/-- The host's actions. -/
inductive HostAction where
  /-- Beats sent on the command port, after those already there (30_encoding.md R45). -/
  | send (beats : List Word)
  /-- The oldest `n` beats taken from the response port (30_encoding.md R46). -/
  | takeResponses (n : Nat)
  /-- The host settles how many more response beats it takes: every beat, or `k` more and then none (30_encoding.md
  R46). -/
  | listen (room : Option Nat)
  /-- The snapshot source placed: bytes, position, schedule of failures, whether it answers (44_snapshot.md R115). -/
  | placeSource (bytes : List Byte) (pos : Nat) (stops : List Nat) (ready : Bool)
  /-- The snapshot sink arranged: a new, empty one with a schedule of failures, and whether it answers
  (44_snapshot.md R115). -/
  | placeSink (stops : List Nat) (ready : Bool)
  /-- Reset asserted, to land when the command then in progress has moved `moved` bytes (70_reset_and_hazards.md
  R161). -/
  | assertReset (moved : Nat)
deriving DecidableEq, Repr

/-- The state after a host action. -/
def State.host (s : State) : HostAction → State
  | .send beats => { s with cmd := s.cmd ++ beats }
  | .takeResponses n => { s with rsp := s.rsp.drop n }
  | .listen room => { s with rspRoom := room }
  | .placeSource bytes pos stops ready =>
    { s with src := { s.src with bytes := bytes, pos := pos, stops := stops, ready := ready } }
  | .placeSink stops ready => { s with snk := { got := [], stops := stops, ready := ready } }
  | .assertReset moved => { s with rst := .asserted moved }

end Sys2Proof.Machine
end

