-- ==== Sys2Proof/Safety.lean ====
section
/-! DEFINITION. The terms claims use: the invariant of the core (10_state.md R19), a running core, one bit of
storage, the bytes a source can deliver, and a sequence of commands. -/

namespace Sys2Proof.Machine

/-- The legal values of `FAULT` (10_state.md R10). -/
abbrev State.FaultLegal (s : State) : Prop :=
  s.fault = 0x00#8 ∨ s.fault = 0x80#8 ∨ s.fault = 0x81#8 ∨ s.fault = 0x82#8 ∨ s.fault = 0x83#8

/-- What 10_state.md R19 says of a container, and that the storage lists owned words only (20_memory.md R31). -/
abbrev State.ContainerLegal (s : State) : Prop :=
  s.nf.toNat ≤ s.cfg.nfMax ∧ (s.mode = .uniform → s.nf.toNat = 1) ∧ s.WidthsLegal ∧
    s.rb.toNat = s.widths.sum ∧ s.nw.toNat ≤ s.cfg.nwMax ∧ ∀ c ∈ s.mem, c.1 < s.nw.toNat

/-- The invariant of the core: legal parameters (00_scope.md R7), a legal `FAULT` (10_state.md R10), a width
register file of `NF_MAX` entries (R15), canonical storage, and a legal container while `VALID = 1` (R19). -/
abbrev State.Inv (s : State) : Prop :=
  s.cfg.Legal ∧ s.FaultLegal ∧ s.fw.length = s.cfg.nfMax ∧ s.mem.wf ∧ (s.valid = true → s.ContainerLegal)

/-- What a core that holds a stuck command shows: during a load no container exists (44_snapshot.md R121, R128),
during a DUMP one does (R116), and no fault has been raised and no response is to be sent. -/
abbrev State.HeldInv (s : State) : Prop :=
  (s.held = some .ldu ∨ s.held = some .ldm → s.valid = false) ∧ (s.held = some .dump → s.valid = true) ∧
    (s.held ≠ none → s.fault = 0x00#8 ∧ s.unsent = [])

/-- The core is between commands: it is not halted, reset is not asserted, no response is still to be sent and no
command is stuck (60_exceptions.md R141, R145, R153). -/
abbrev State.Idle (s : State) : Prop :=
  s.fault = 0x00#8 ∧ s.rst = .released ∧ s.unsent = [] ∧ s.held = none

/-- The core takes commands and the host takes every response beat (60_exceptions.md R141, R145; 30_encoding.md R46). -/
abbrev State.Running (s : State) : Prop := s.Idle ∧ s.rspRoom = none

/-- The snapshot ports that the command uses answer: the source for LDU and LDM, the sink for a DUMP of a container
(44_snapshot.md R115, R116, R121). -/
abbrev State.PortsAnswer (s : State) (i : Instr) : Prop :=
  (i = .ldu ∨ i = .ldm → s.src.ready = true) ∧ (i = .dump → s.valid = true → s.snk.ready = true)

/-- The command in progress, or the one the core would take next, is `i`: what a reset now would cut off
(70_reset_and_hazards.md R161). -/
abbrev State.CutsOff (s : State) (i : Instr) : Prop :=
  s.fault = 0x00#8 ∧ s.unsent = [] ∧
    ((s.held = none ∧ ∃ rest, decode s.cmd = .frame i rest) ∨ ∃ h, s.held = some h ∧ h.instr = i)

/-- A safe step: the core goes on, and no fault of the spec has halted it ("a run that ends halted has gone wrong",
60_exceptions.md R141). -/
def State.SafeStep (s : State) : Prop := ∃ t, step s = .next t ∧ t.fault = 0x00#8

/-- The bit of storage at bit offset `b` (20_memory.md R30, R33). -/
def Memory.bitAt (m : Memory) (b : Nat) : Bool := (m.read (wordOf b)).getLsbD (bitOf b)

/-- How many bytes the source delivers before it comes short: to its end, or to its next failure (44_snapshot.md
R115). -/
def Source.deliverable (src : Source) : Nat :=
  match src.stops with
  | [] => src.bytes.length - src.pos
  | r :: _ => min r (src.bytes.length - src.pos)

/-- The bytes from the source's position on. -/
def Source.ahead (src : Source) : List Byte := src.bytes.drop src.pos

/-- The four constructor commands (10_state.md R11). -/
def isConstructor : Instr → Bool
  | .cfgu _ _ => true
  | .cfgm _ _ => true
  | .ldu => true
  | .ldm => true
  | .bitw _ => false
  | .cap => false
  | .set _ _ => false
  | .get _ => false
  | .dump => false

/-- The command is a SET of record `idx`. -/
def setsRecord (idx : Word) : Instr → Bool
  | .set j _ => decide (j = idx)
  | .bitw _ => false
  | .cfgu _ _ => false
  | .cfgm _ _ => false
  | .cap => false
  | .get _ => false
  | .dump => false
  | .ldu => false
  | .ldm => false

/-- The commands run one after another, while each answers a next state. -/
def execAll : List Instr → State → Option State
  | [], s => some s
  | i :: is, s =>
    match exec i s with
    | .next t => execAll is t
    | .fault _ => none
    | .refused _ => none

end Sys2Proof.Machine
end

