-- ==== Sys2Proof/Certificates/Slice0/Obligations.lean ====
section
/-! DEFINITION. The statements for the provers, in the order of OBLIGATIONS.json. Each docstring names the rule of
spec/ it formalises; where a clause is the model's choice, it names the log entry. -/

open Sys2Proof Sys2Proof.Machine

/-! ## Frames -/

/-- Decoding the frame of a well-formed command gives the command and the beats after the frame (30_encoding.md
R47, R48, R49, R58). -/
def Obligations.DecodeEncodeRoundTrip : Prop :=
  ∀ (i : Instr) (rest : List Word), i.wellFormed = true → decode (encode i ++ rest) = .frame i rest

/-- A frame has one meaning: beats that decode to a command are that command's frame, followed by the rest
(30_encoding.md R47, R48, R58). -/
def Obligations.DecodedFrameIsItsEncoding : Prop :=
  ∀ (beats rest : List Word) (i : Instr),
    decode beats = .frame i rest → i.wellFormed = true ∧ beats = encode i ++ rest

/-- The two command frames and the GET of 30_encoding.md R59 decode to the commands they stand for. -/
def Obligations.ExampleFramesDecode : Prop :=
  decode [0x0501000000000000#64, 0x24#64, 0x34#64] = .frame (.set 36#64 [0x34#64]) [] ∧
  decode [0x0303000000000000#64, 0x4#64, 0x5#64, 0x401#64, 0x800000000001B207#64] =
    .frame (.cfgm 4#64 [5#64, 1025#64, 0x800000000001B207#64]) [] ∧
  decode [0x0600000000000000#64, 0x2#64] = .frame (.get 2#64) []

/-- A running core whose next beat is an illegal header (exactly the cases of 30_encoding.md R51) takes that beat
alone and raises ILLEGAL_COMMAND (60_exceptions.md R137, R141). Where the host takes no response beat, see
SilentHostHoldsTheResponse. -/
def Obligations.IllegalHeaderRaisesIllegalCommand : Prop :=
  ∀ (s : State) (h : Word) (rest : List Word), s.Running → s.cmd = h :: rest →
    (((h.toNat / 2 ^ 56 = 0 ∨ 0x0A ≤ h.toNat / 2 ^ 56) ∨ h.toNat % 2 ^ 48 ≠ 0 ∨
        (h.toNat / 2 ^ 56 ≠ 0x02 ∧ h.toNat / 2 ^ 56 ≠ 0x03 ∧ h.toNat / 2 ^ 56 ≠ 0x05 ∧
          h.toNat / 2 ^ 48 % 2 ^ 8 ≠ 0) ∨
        (h.toNat / 2 ^ 56 = 0x02 ∧ h.toNat / 2 ^ 48 % 2 ^ 8 ≠ 1)) ↔
      ∃ why, decode s.cmd = .illegal why rest) ∧
    ∀ why, decode s.cmd = .illegal why rest →
      step s = .next { s with cmd := rest, fault := 0x80#8, rsp := s.rsp ++ [0x8000000000000000#64] }

/-! ## The step -/

/-- A running core whose command port starts with a whole frame takes the frame and runs its command
(30_encoding.md R58; 20_memory.md R40). Where the host takes no response beat, see SilentHostHoldsTheResponse. -/
def Obligations.StepRunsDecodedCommand : Prop :=
  ∀ (s : State) (i : Instr) (rest : List Word), s.Running → decode s.cmd = .frame i rest →
    step s = exec i { s with cmd := rest }

/-- A core between commands whose host takes `k` response beats and then none (none at all where `k` is 0) runs the
next command, or takes the next illegal header, all the same: its effects are those it has where the host takes every
beat, the first `k` beats of its response are sent, and the others are still to be sent (30_encoding.md R46, R58;
log 11). -/
def Obligations.SilentHostHoldsTheResponse : Prop :=
  ∀ (s : State) (k : Nat), s.Idle → s.rspRoom = some k →
    (∀ (i : Instr) (rest : List Word), decode s.cmd = .frame i rest →
      (∀ (t : State) (beats : List Word), exec i { s with cmd := rest } = .next t → t.rsp = s.rsp ++ beats →
        step s = .next { t with rsp := s.rsp ++ beats.take k, unsent := beats.drop k,
                                rspRoom := some (k - beats.length) }) ∧
      (∀ f, exec i { s with cmd := rest } = .fault f → step s = .fault f) ∧
      ∀ r, exec i { s with cmd := rest } = .refused r → step s = .refused r) ∧
    ∀ (why : Reject) (rest : List Word), decode s.cmd = .illegal why rest →
      step s = .next { s with cmd := rest, fault := 0x80#8, rsp := s.rsp ++ [0x8000000000000000#64].take k,
                              unsent := [0x8000000000000000#64].drop k, rspRoom := some (k - 1) }

/-- A core takes no step because it is halted exactly when `FAULT` is not 0x00, the fault's response has been sent
and reset is not asserted (60_exceptions.md R141, its steps (b), (c) and (d); 93_implementation_defined.md S5;
logs 9, 11). -/
def Obligations.HaltedCoreTakesNoStep : Prop :=
  ∀ s : State, step s = .fault .halted ↔ s.fault ≠ 0x00#8 ∧ s.rst = .released ∧ s.unsent = []

/-- A core between commands with a proper part of a frame on the command port waits: no step
(30_encoding.md R58; 93_implementation_defined.md S6; log 8). -/
def Obligations.IncompleteFrameWaits : Prop :=
  ∀ (s : State) (i : Instr) (k : Nat), s.Idle → i.wellFormed = true → k < (encode i).length →
    s.cmd = (encode i).take k → step s = .fault .waitingForBeat

/-- While a port does not answer, a command stuck at it takes no step: LDU and LDM at the source, DUMP at the sink, a
response at a host that takes no beat (93_implementation_defined.md S6; 30_encoding.md R46; logs 11, 12, 14). -/
def Obligations.SilentPortStopsTheCore : Prop :=
  (∀ s : State, s.rst = .released → s.unsent ≠ [] → s.rspRoom = some 0 → step s = .fault .waitingForResponse) ∧
  ∀ s : State, s.fault = 0x00#8 → s.rst = .released → s.unsent = [] →
    (s.held = some .ldu ∨ s.held = some .ldm → s.src.ready = false → step s = .fault .waitingForSource) ∧
    (s.held = some .dump → s.snk.ready = false → step s = .fault .waitingForSink)

/-- A command whose snapshot port does not answer gets as far as its first access: LDU and LDM have dropped the
container (`VALID` is 0; 44_snapshot.md R121, R128; 70_reset_and_hazards.md R167), DUMP has done nothing, and nothing
is answered. That `VALID` shows 0 during the wait is the model's reading (logs 12, 14). -/
def Obligations.SilentPortHoldsTheCommand : Prop :=
  (∀ s : State, s.src.ready = false →
    (∃ t, exec .ldu s = .next t ∧ t.valid = false ∧
      t = { s with valid := t.valid, mode := t.mode, nf := t.nf, fw := t.fw, rb := t.rb, nw := t.nw, mem := t.mem,
                   held := some .ldu, draws := t.draws }) ∧
    ∃ t, exec .ldm s = .next t ∧ t.valid = false ∧
      t = { s with valid := t.valid, mode := t.mode, nf := t.nf, fw := t.fw, rb := t.rb, nw := t.nw, mem := t.mem,
                   held := some .ldm, draws := t.draws }) ∧
  ∀ s : State, s.valid = true → s.snk.ready = false → exec .dump s = .next { s with held := some .dump }

/-- A stuck core goes on once its port answers: the response is sent as far as the host takes it, the command runs
(93_implementation_defined.md S6; 30_encoding.md R46; logs 11, 12, 14). -/
def Obligations.StuckCoreGoesOn : Prop :=
  (∀ s : State, s.rst = .released → s.unsent ≠ [] →
    (s.rspRoom = none → step s = .next { s with rsp := s.rsp ++ s.unsent, unsent := [] }) ∧
    ∀ k, s.rspRoom = some k → k ≠ 0 →
      step s = .next { s with rsp := s.rsp ++ s.unsent.take k, unsent := s.unsent.drop k,
                              rspRoom := some (k - s.unsent.length) }) ∧
  ∀ (s : State) (h : Held) (i : Instr), s.fault = 0x00#8 → s.rst = .released → s.unsent = [] → s.held = some h →
    (h = .ldu ∧ i = .ldu ∧ s.src.ready = true ∨ h = .ldm ∧ i = .ldm ∧ s.src.ready = true ∨
      h = .dump ∧ i = .dump ∧ s.snk.ready = true) →
    (s.rspRoom = none → step s = exec i { s with held := none }) ∧
    (∀ (k : Nat) (t : State) (beats : List Word), s.rspRoom = some k → exec i { s with held := none } = .next t →
      t.rsp = s.rsp ++ beats →
      step s = .next { t with rsp := s.rsp ++ beats.take k, unsent := beats.drop k,
                              rspRoom := some (k - beats.length) })

/-- Every step keeps what a core shows that holds a stuck command: `VALID` is 0 while a load waits (44_snapshot.md
R121, R128), 1 while a DUMP waits, and neither a fault nor a response is pending (R116; logs 12, 14). -/
def Obligations.StepKeepsTheHeldInvariant : Prop :=
  ∀ s t : State, s.HeldInv → step s = .next t → t.HeldInv

/-- With `FAULT` not 0x00 a step sends beats of the fault's response that were still to be sent and changes nothing
else but how many the host will take (60_exceptions.md R141; log 11), or is a reset: the only way out of the halted
state, which clears `FAULT` and `VALID` (R147). -/
def Obligations.OnlyResetLeavesTheHaltedState : Prop :=
  ∀ s t : State, s.fault ≠ 0x00#8 → step s = .next t →
    (s.rst = .released ∧ s.unsent ≠ [] ∧
      t = { s with rsp := t.rsp, unsent := t.unsent, rspRoom := t.rspRoom } ∧
      ∃ n, 0 < n ∧ t.rsp = s.rsp ++ s.unsent.take n ∧ t.unsent = s.unsent.drop n) ∨
    ((∃ moved, s.rst = .asserted moved) ∧ t.fault = 0x00#8 ∧ t.valid = false)

/-- A step with reset asserted: no container, no fault, both beat ports empty, no command in progress, the input
released, the parameters as they were; the source holds the same bytes and has delivered AT MOST `moved` more, the
sink has accepted AT MOST `moved` more, and both stand where they stood when nothing had moved
(70_reset_and_hazards.md R160, R161; the count `moved` is the model's, log 15, and so are the fields that hold a stuck
command and its unsent response, logs 11, 12, 14). What exactly stays moved is ResetKeepsWhatWasMoved. -/
def Obligations.ResetStepLeavesNoContainer : Prop :=
  ∀ (s : State) (moved : Nat), s.rst = .asserted moved →
    ∃ t, step s = .next t ∧ t.valid = false ∧ t.fault = 0x00#8 ∧ t.cmd = [] ∧ t.rsp = [] ∧
      t.unsent = [] ∧ t.held = none ∧
      t.rst = .released ∧ t.cfg = s.cfg ∧ t.rspRoom = s.rspRoom ∧ t.src.bytes = s.src.bytes ∧
      s.src.taken ≤ t.src.taken ∧ t.src.taken ≤ s.src.taken + moved ∧
      (∃ bs : List Byte, bs.length ≤ moved ∧ t.snk.got = s.snk.got ++ bs) ∧
      (moved = 0 → t.src = s.src ∧ t.snk = s.snk)

/-- What a command cut off by reset has moved stays moved (70_reset_and_hazards.md R161): of a DUMP, the first `moved`
bytes of the snapshot, or those up to the sink's failure; of a load, `moved` bytes of the source, or all that the
whole load takes; of any other command, and at a port that does not answer, nothing. The count `moved` is the
model's (log 15), and so is what it holds of a stuck command (logs 12, 14). -/
def Obligations.ResetKeepsWhatWasMoved : Prop :=
  ∀ (s : State) (moved : Nat), s.rst = .asserted moved →
    ∃ t, step s = .next t ∧
      (s.CutsOff .dump → s.valid = true → s.snk.ready = true →
        t.src = s.src ∧
        ((∀ r rs, s.snk.stops = r :: rs → s.snapshot.length ≤ r) →
          t.snk.got = s.snk.got ++ s.snapshot.take moved) ∧
        ∀ r rs, s.snk.stops = r :: rs → r < s.snapshot.length →
          t.snk.got = s.snk.got ++ s.snapshot.take (min moved r)) ∧
      (∀ u, (s.CutsOff .ldu ∧ exec .ldu s = .next u ∨ s.CutsOff .ldm ∧ exec .ldm s = .next u) →
        s.src.ready = true →
        t.snk = s.snk ∧ (moved ≤ u.src.taken - s.src.taken → t.src = s.src.advance moved) ∧
        (u.src.taken - s.src.taken < moved → t.src = u.src)) ∧
      ((s.CutsOff .dump → s.valid = false ∨ s.snk.ready = false) →
        (s.CutsOff .ldu ∨ s.CutsOff .ldm → s.src.ready = false) → t.src = s.src ∧ t.snk = s.snk)

/-- Every step keeps the invariant of the core: legal parameters and `FAULT`, canonical storage, and a legal
container while `VALID = 1` (10_state.md R10, R19). -/
def Obligations.StepKeepsTheInvariant : Prop :=
  ∀ s t : State, s.Inv → step s = .next t → t.Inv

/-- Both invariants hold right after reset, whatever the legal parameters; the registers' values there (log 2) and the
fields that HeldInv speaks of (logs 12, 14) are the model's. -/
def Obligations.ResetMeetsTheInvariant : Prop :=
  (State.reset.Inv ∧ State.reset.HeldInv) ∧
    ∀ c : Params, c.Legal → (State.resetWith c).Inv ∧ (State.resetWith c).HeldInv

/-- No host action breaks either invariant (10_state.md R20: the host does not reach storage; the actions are the
model's, log 20, and so are the fields that HeldInv speaks of, logs 12, 14). -/
def Obligations.HostActionsKeepTheInvariant : Prop :=
  ∀ (s : State) (a : HostAction), (s.Inv → (s.host a).Inv) ∧ (s.HeldInv → (s.host a).HeldInv)

/-- Under the invariant a core between commands takes every whole frame (30_encoding.md R58): no storage access of any
command is out of range (20_memory.md R31; 41_address_generation.md R86). Where the host takes every response beat and
the snapshot ports the command uses answer, the command has ended after that step (70_reset_and_hazards.md R175). That
there is a next state where a port does not answer, and that empty `unsent` and `held` mark a command that has ended,
is the model's choice (logs 11, 12, 14): 93_implementation_defined.md S6 says `stuck`. -/
def Obligations.WholeFrameAlwaysCompletes : Prop :=
  ∀ (s : State) (i : Instr) (rest : List Word), s.Inv → s.Idle → decode s.cmd = .frame i rest →
    ∃ t, step s = .next t ∧ (s.rspRoom = none → s.PortsAnswer i → t.unsent = [] ∧ t.held = none)

/-! ## Every command -/

/-- Every command whose snapshot ports answer answers with exactly one response frame, whose header counts the result
beats that follow (30_encoding.md R53, R54, R55). One that is stuck at a snapshot port has answered nothing: that this
is a next state with the command in `held` is the model's choice (logs 12, 14; 93_implementation_defined.md S6 says
`stuck`). -/
def Obligations.OneResponseFramePerCommand : Prop :=
  ∀ (i : Instr) (s t : State), exec i s = .next t →
    (s.PortsAnswer i →
      ∃ (st : Status) (qs : List Word), qs.length ≤ 255 ∧ t.rsp = s.rsp ++ rspHeader st qs.length :: qs ∧
        (rspHeader st qs.length).toNat = st.code.toNat * 2 ^ 56 + qs.length * 2 ^ 48) ∧
    (¬ s.PortsAnswer i → t.rsp = s.rsp ∧ t.held ≠ none)

/-- A command whose snapshot ports answer ends in one of three ways: success; an error, which only a constructor or
DUMP reports and which leaves `FAULT` alone; a fault, which changes nothing but `FAULT` and the response port and
comes from CAP, SET, GET or DUMP (60_exceptions.md R135, R141). -/
def Obligations.CommandEndsInOneOfThreeWays : Prop :=
  ∀ (i : Instr) (s t : State), s.PortsAnswer i → exec i s = .next t →
    (∃ qs : List Word, t.fault = s.fault ∧ t.rsp = s.rsp ++ rspHeader .ok qs.length :: qs) ∨
    (∃ st, (st = .ioError ∨ st = .formatError ∨ st = .resourceError) ∧
      (isConstructor i = true ∨ i = .dump) ∧ t.fault = s.fault ∧ t.rsp = s.rsp ++ [rspHeader st 0]) ∨
    (∃ st, (st = .noContainer ∨ st = .argCount ∨ st = .indexRange) ∧
      (i = .cap ∨ i = .dump ∨ (∃ n, i = .get n) ∨ ∃ n vs, i = .set n vs) ∧
      t = { s with fault := st.code, rsp := s.rsp ++ [rspHeader st 0] })

/-- `VALID` is 0 after reset; a constructor command sets it to 0 when it starts, so that it is 0 in a load that waits
at the source, and ends with `VALID = 1` exactly when its status is OK; no other command writes it; and while it is 0,
CAP, SET, GET and DUMP raise NO_CONTAINER (10_state.md R11). That a load waiting at the source shows 0 is the model's
reading (log 12). -/
def Obligations.ValidSaysWhetherAContainerExists : Prop :=
  State.reset.valid = false ∧
  (∀ (i : Instr) (s t : State), isConstructor i = true → exec i s = .next t →
    (s.PortsAnswer i →
      (t.valid = true ∧ t.rsp = s.rsp ++ [0x0000000000000000#64]) ∨
      (t.valid = false ∧ ∃ st, (st = .ioError ∨ st = .formatError ∨ st = .resourceError) ∧
        t.rsp = s.rsp ++ [rspHeader st 0])) ∧
    (¬ s.PortsAnswer i → t.valid = false ∧ t.rsp = s.rsp)) ∧
  (∀ (i : Instr) (s t : State), isConstructor i = false → exec i s = .next t → t.valid = s.valid) ∧
  (∀ (i : Instr) (s : State), s.valid = false →
    (i = .cap ∨ i = .dump ∨ (∃ n, i = .get n) ∨ ∃ n vs, i = .set n vs) →
    exec i s = .next { s with fault := 0x81#8, rsp := s.rsp ++ [0x8100000000000000#64] })

/-- CAP, SET, GET and DUMP raise NO_CONTAINER while `VALID = 0`, before any other test; BITW and the constructors
never touch `FAULT` (60_exceptions.md R138). -/
def Obligations.NoContainerFault : Prop :=
  (∀ (i : Instr) (s : State), s.valid = false →
    (i = .cap ∨ i = .dump ∨ (∃ n, i = .get n) ∨ ∃ n vs, i = .set n vs) →
    exec i s = .next { s with fault := 0x81#8, rsp := s.rsp ++ [0x8100000000000000#64] }) ∧
  ∀ (i : Instr) (s t : State), ((∃ a, i = .bitw a) ∨ isConstructor i = true) → exec i s = .next t →
    t.fault = s.fault

/-- The registers of a container change only in a constructor command: BITW, CAP and GET change nothing but the
response port, DUMP besides it the sink, SET besides it storage (10_state.md R21). `FAULT` changes only to the code of
a fault that the response reports, in BITW never (60_exceptions.md R135, R141). That a DUMP waiting at a silent sink
also changes the field `held` is the model's choice (log 14), and no part of R21. -/
def Obligations.OnlyConstructorsWriteTheRegisters : Prop :=
  ∀ (i : Instr) (s t : State), isConstructor i = false → exec i s = .next t →
    (i = .dump →
      t = { s with fault := t.fault, rsp := t.rsp, snk := t.snk, held := t.held } ∧
        (t.held = s.held ∨ t.held = some .dump ∧ s.snk.ready = false)) ∧
    ((∃ n vs, i = .set n vs) → t = { s with fault := t.fault, rsp := t.rsp, mem := t.mem }) ∧
    ((i = .cap ∨ ∃ n, i = .get n) → t = { s with fault := t.fault, rsp := t.rsp }) ∧
    ((∃ a, i = .bitw a) → t = { s with rsp := t.rsp }) ∧
    (t.fault = s.fault ∨
      ∃ st, st.isFault = true ∧ t.fault = st.code ∧ t.rsp = s.rsp ++ [rspHeader st 0])

/-! ## Combinators and BITW -/

/-- MASK, SHL and SHR as numbers, over their whole domain (40_combinators.md R65, R66, R67). -/
def Obligations.MaskAndShiftValues : Prop :=
  (∀ w, w ≤ 64 → (mask w).toNat = 2 ^ w - 1) ∧
  (∀ (x : Word) (n : Nat), n ≤ 63 → (shl x n).toNat = x.toNat * 2 ^ n % 2 ^ 64) ∧
  (∀ (x : Word) (n : Nat), n ≤ 63 → (shr x n).toNat = x.toNat / 2 ^ n)

/-- EXTRACT is the `w`-bit field of a word that starts at bit `r` (40_combinators.md R68). -/
def Obligations.ExtractIsTheBitField : Prop :=
  ∀ (x : Word) (r w : Nat), r ≤ 63 → w ≤ 64 → r + w ≤ 64 →
    (extract x r w).toNat = x.toNat / 2 ^ r % 2 ^ w

/-- DEPOSIT then EXTRACT gives the value cut to the width; other fields are undisturbed; a second DEPOSIT leaves
nothing of the first (40_combinators.md R72). -/
def Obligations.DepositExtractLaws : Prop :=
  ∀ (x : Word) (r w : Nat), r ≤ 63 → w ≤ 64 → r + w ≤ 64 →
    (∀ v : Word, extract (deposit x r w v) r w = v &&& mask w) ∧
    (∀ (v : Word) (r' w' : Nat), r' ≤ 63 → w' ≤ 64 → r' + w' ≤ 64 →
      (∀ b, ¬(r ≤ b ∧ b < r + w ∧ r' ≤ b ∧ b < r' + w')) →
      extract (deposit x r w v) r' w' = extract x r' w') ∧
    (∀ v1 v2 : Word, deposit (deposit x r w v1) r w v2 = deposit x r w v2)

/-- JOIN rebuilds a value from its SPLIT parts (40_combinators.md R74). -/
def Obligations.JoinRebuildsTheSplitValue : Prop :=
  ∀ (v : Word) (lo : Nat), 1 ≤ lo → lo ≤ 63 → join (splitLo v lo) (splitHi v lo) lo = v

/-- BITW answers the least `k` with `maxValue < 2^k`, at most 64, in every state, and changes nothing else
(40_combinators.md R70, R71). -/
def Obligations.BitwReturnsTheLeastWidth : Prop :=
  ∀ (a : Word) (s : State), ∃ k ≤ 64,
    exec (.bitw a) s =
      .next { s with rsp := s.rsp ++ [0x0001000000000000#64, BitVec.ofNat 64 k] } ∧
    a.toNat < 2 ^ k ∧ ∀ j, a.toNat < 2 ^ j → k ≤ j

/-! ## Address generation -/

/-- The stepped cursor and the closed form agree at every field of a record (41_address_generation.md R89). -/
def Obligations.CursorAgreesWithTheOffset : Prop :=
  ∀ (widths : List Nat) (rb n i : Nat), (∀ w ∈ widths, w ≤ 64) → i ≤ widths.length →
    64 * (cursorAt (wordOf (n * rb)) (bitOf (n * rb)) (widths.take i)).1 +
        (cursorAt (wordOf (n * rb)) (bitOf (n * rb)) (widths.take i)).2 = off widths rb n i ∧
      (cursorAt (wordOf (n * rb)) (bitOf (n * rb)) (widths.take i)).2 ≤ 63

/-- The bit ranges of two different fields, of one record or of two, never overlap (41_address_generation.md R87). -/
def Obligations.FieldRangesAreDisjoint : Prop :=
  ∀ (widths : List Nat) (n n' i i' : Nat) (hi : i < widths.length) (hi' : i' < widths.length),
    (n, i) ≠ (n', i') → ∀ b,
      ¬(off widths widths.sum n i ≤ b ∧ b < off widths widths.sum n i + widths[i] ∧
        off widths widths.sum n' i' ≤ b ∧ b < off widths widths.sum n' i' + widths[i'])

/-! ## Construction and capacity -/

/-- CFGU: a uniform container of one field of the hint's width with all owned words zero, or RESOURCE_ERROR and no
container when the words asked for exceed `NW_MAX`; everything outside the container stays (42_configuration.md
R90, R91, R93, R97). -/
def Obligations.CfguBuildsAUniformContainer : Prop :=
  ∀ (cap hint : Word) (s : State), s.cfg.Legal →
    (max 1 ((cap.toNat * bitWidth hint + 63) / 64) ≤ s.cfg.nwMax →
      ∃ t, exec (.cfgu cap hint) s = .next t ∧ t.valid = true ∧ t.mode = .uniform ∧ t.nf.toNat = 1 ∧
        t.widths = [bitWidth hint] ∧ t.rb.toNat = bitWidth hint ∧
        t.nw.toNat = max 1 ((cap.toNat * bitWidth hint + 63) / 64) ∧
        (∀ p < t.nw.toNat, memRead t.nw.toNat t.mem p = some 0#64) ∧
        t = { s with valid := t.valid, mode := t.mode, nf := t.nf, fw := t.fw, rb := t.rb, nw := t.nw,
                     mem := t.mem, rsp := s.rsp ++ [0x0000000000000000#64] }) ∧
    (max 1 ((cap.toNat * bitWidth hint + 63) / 64) > s.cfg.nwMax →
      ∃ t, exec (.cfgu cap hint) s = .next t ∧ t.valid = false ∧
        t.rsp = s.rsp ++ [0x0300000000000000#64] ∧ t.fault = s.fault ∧ t.cfg = s.cfg ∧ t.cmd = s.cmd ∧
        t.rspRoom = s.rspRoom ∧ t.unsent = s.unsent ∧ t.held = s.held ∧ t.src = s.src ∧ t.snk = s.snk ∧
        t.rst = s.rst)

/-- CFGM: a multi-field container with a field of each hint's width and all owned words zero, or RESOURCE_ERROR and
no container when there are more than `NF_MAX` hints or the words asked for exceed `NW_MAX`; everything outside the
container stays (42_configuration.md R90, R91, R92, R94, R97). -/
def Obligations.CfgmBuildsAMultiFieldContainer : Prop :=
  ∀ (cap : Word) (hints : List Word) (s : State), s.cfg.Legal →
    (hints.length ≤ s.cfg.nfMax →
      max 1 ((cap.toNat * (hints.map bitWidth).sum + 63) / 64) ≤ s.cfg.nwMax →
      ∃ t, exec (.cfgm cap hints) s = .next t ∧ t.valid = true ∧ t.mode = .multi ∧
        t.nf.toNat = hints.length ∧ t.widths = hints.map bitWidth ∧
        t.rb.toNat = (hints.map bitWidth).sum ∧
        t.nw.toNat = max 1 ((cap.toNat * (hints.map bitWidth).sum + 63) / 64) ∧
        (∀ p < t.nw.toNat, memRead t.nw.toNat t.mem p = some 0#64) ∧
        t = { s with valid := t.valid, mode := t.mode, nf := t.nf, fw := t.fw, rb := t.rb, nw := t.nw,
                     mem := t.mem, rsp := s.rsp ++ [0x0000000000000000#64] }) ∧
    (hints.length > s.cfg.nfMax ∨
        max 1 ((cap.toNat * (hints.map bitWidth).sum + 63) / 64) > s.cfg.nwMax →
      ∃ t, exec (.cfgm cap hints) s = .next t ∧ t.valid = false ∧
        t.rsp = s.rsp ++ [0x0300000000000000#64] ∧ t.fault = s.fault ∧ t.cfg = s.cfg ∧ t.cmd = s.cmd ∧
        t.rspRoom = s.rspRoom ∧ t.unsent = s.unsent ∧ t.held = s.held ∧ t.src = s.src ∧ t.snk = s.snk ∧
        t.rst = s.rst)

/-- CAP answers `(NW * 64) div RB`, or `2^64 - 1` when `RB = 0`, which is exactly the bound of the range check
when `RB > 0`; it changes nothing else (42_configuration.md R95). -/
def Obligations.CapReturnsTheExactBound : Prop :=
  ∀ s : State, s.valid = true → ∃ c < 2 ^ 64,
    exec .cap s = .next { s with rsp := s.rsp ++ [0x0001000000000000#64, BitVec.ofNat 64 c] } ∧
    (s.rb.toNat = 0 → c = 0xFFFFFFFFFFFFFFFF) ∧
    (s.rb.toNat ≠ 0 → c = s.nw.toNat * 64 / s.rb.toNat ∧ ∀ n, s.InRange n ↔ n < c)

/-- After a successful CFGU or CFGM, CAP answers at least the capacity hint, and every index below the hint is in
range (42_configuration.md R96). -/
def Obligations.FreshCapacityCoversTheHint : Prop :=
  ∀ (i : Instr) (cap : Word) (s t : State), s.cfg.Legal →
    ((∃ hint, i = .cfgu cap hint) ∨ ∃ hints, i = .cfgm cap hints) →
    exec i s = .next t → t.valid = true →
    (∃ c : Word, cap.toNat ≤ c.toNat ∧
      exec .cap t = .next { t with rsp := t.rsp ++ [0x0001000000000000#64, c] }) ∧
    ∀ n < cap.toNat, t.InRange n

/-! ## Field access -/

/-- SET raises ARG_COUNT when the number of values is not `NF`, else INDEX_RANGE when the record is out of range;
GET raises INDEX_RANGE likewise; nothing changes but `FAULT` and the response (60_exceptions.md R139, R140). -/
def Obligations.ArgCountAndIndexRangeFaults : Prop :=
  ∀ (idx : Word) (vs : List Word) (s : State), s.valid = true →
    (vs.length ≠ s.nf.toNat →
      exec (.set idx vs) s = .next { s with fault := 0x82#8, rsp := s.rsp ++ [0x8200000000000000#64] }) ∧
    (vs.length = s.nf.toNat → 64 * s.nw.toNat < (idx.toNat + 1) * s.rb.toNat →
      exec (.set idx vs) s = .next { s with fault := 0x83#8, rsp := s.rsp ++ [0x8300000000000000#64] }) ∧
    (64 * s.nw.toNat < (idx.toNat + 1) * s.rb.toNat →
      exec (.get idx) s = .next { s with fault := 0x83#8, rsp := s.rsp ++ [0x8300000000000000#64] })

/-- The crossing write puts the low part at the top of word `p` and the high part at the bottom of word `p + 1`,
keeping the other bits of both words and every other word (43_field_access.md R103). -/
def Obligations.CrossingWriteWrittenOut : Prop :=
  ∀ (nw : Nat) (m : Memory) (p r w : Nat) (v : Word), m.wf → r ≤ 63 → w ≤ 64 → r + w > 64 → p + 1 < nw →
    ∃ m', writeX nw m p r w v = some m' ∧
      m'.read p = (m.read p &&& mask r) ||| shl ((v &&& mask w) &&& mask (64 - r)) r ∧
      m'.read (p + 1) = (m.read (p + 1) &&& ~~~(mask (w - (64 - r)))) ||| shr (v &&& mask w) (64 - r) ∧
      ∀ q, q ≠ p → q ≠ p + 1 → m'.read q = m.read q

/-- SET writes every field of the record, each value cut to its field's width, at the field's bit offsets, changes
no bit of storage outside the record, and answers OK; nothing else changes (43_field_access.md R100, R105, R113). -/
def Obligations.SetWritesExactlyTheRecord : Prop :=
  ∀ (idx : Word) (vs : List Word) (s : State), s.Inv → s.valid = true → vs.length = s.nf.toNat →
    (idx.toNat + 1) * s.rb.toNat ≤ 64 * s.nw.toNat →
    ∃ m : Memory,
      exec (.set idx vs) s = .next { s with mem := m, rsp := s.rsp ++ [0x0000000000000000#64] } ∧
      (∀ (i : Nat) (hi : i < s.widths.length) (hv : i < vs.length) (j : Nat), j < s.widths[i] →
        m.bitAt (off s.widths s.rb.toNat idx.toNat i + j) = vs[i].getLsbD j) ∧
      (∀ b, b < idx.toNat * s.rb.toNat ∨ (idx.toNat + 1) * s.rb.toNat ≤ b → m.bitAt b = s.mem.bitAt b)

/-- GET answers OK with `NF` result beats, beat `i` holding exactly the bits of storage at field `i`'s offsets,
zero-extended; nothing else changes (43_field_access.md R106, 30_encoding.md R54). -/
def Obligations.GetReadsTheRecord : Prop :=
  ∀ (idx : Word) (s : State), s.Inv → s.valid = true →
    (idx.toNat + 1) * s.rb.toNat ≤ 64 * s.nw.toNat →
    ∃ qs : List Word, qs.length = s.nf.toNat ∧
      exec (.get idx) s = .next { s with rsp := s.rsp ++ headerWord 0x00 s.nf.toNat :: qs } ∧
      ∀ (i : Nat) (hi : i < s.widths.length) (hq : i < qs.length),
        qs[i].toNat < 2 ^ s.widths[i] ∧
        ∀ j < s.widths[i], qs[i].getLsbD j = s.mem.bitAt (off s.widths s.rb.toNat idx.toNat i + j)

/-- Round trip: after a SET that answers OK, a GET of the same record, after any commands that are no constructor
and no SET of that record, answers every value cut to its field's width (43_field_access.md R111). -/
def Obligations.SetThenGetRoundTrip : Prop :=
  ∀ (idx : Word) (vs : List Word) (between : List Instr) (s t u : State), s.Inv → s.valid = true →
    exec (.set idx vs) s = .next t → t.rsp = s.rsp ++ [0x0000000000000000#64] →
    (∀ c ∈ between, isConstructor c = false ∧ setsRecord idx c = false) →
    execAll between t = some u →
    ∃ qs : List Word, qs.length = vs.length ∧ vs.length = s.widths.length ∧
      exec (.get idx) u = .next { u with rsp := u.rsp ++ headerWord 0x00 vs.length :: qs } ∧
      ∀ (i : Nat) (hq : i < qs.length) (hv : i < vs.length) (hw : i < s.widths.length),
        qs[i].toNat = vs[i].toNat % 2 ^ s.widths[i]

/-- Overwrite: a second SET of a record leaves storage as if the first had not been (43_field_access.md R112). -/
def Obligations.SecondSetLeavesNoResidue : Prop :=
  ∀ (idx : Word) (vs vs' : List Word) (s : State), s.Inv → s.valid = true → vs.length = s.nf.toNat →
    vs'.length = s.nf.toNat → (idx.toNat + 1) * s.rb.toNat ≤ 64 * s.nw.toNat →
    ∃ t u u' : State, exec (.set idx vs) s = .next t ∧ exec (.set idx vs') t = .next u ∧
      exec (.set idx vs') s = .next u' ∧ u.mem = u'.mem

/-- Non-interference: a SET of one record changes no bit of storage outside it, and a GET of any other record in
range answers the same before and after (43_field_access.md R113). -/
def Obligations.SetLeavesOtherRecords : Prop :=
  ∀ (idx n : Word) (vs : List Word) (s t : State), s.Inv → s.valid = true →
    exec (.set idx vs) s = .next t →
    (∀ b, b < idx.toNat * s.rb.toNat ∨ (idx.toNat + 1) * s.rb.toNat ≤ b → t.mem.bitAt b = s.mem.bitAt b) ∧
    (n ≠ idx → (n.toNat + 1) * s.rb.toNat ≤ 64 * s.nw.toNat →
      ∃ frame : List Word, exec (.get n) s = .next { s with rsp := s.rsp ++ frame } ∧
        exec (.get n) t = .next { t with rsp := t.rsp ++ frame })

/-- Every field of a container just built by CFGU or CFGM reads as 0 (10_state.md R22). -/
def Obligations.UnsetFieldsReadZero : Prop :=
  ∀ (i : Instr) (idx : Word) (s t : State), s.Inv →
    ((∃ cap hint, i = .cfgu cap hint) ∨ ∃ cap hints, i = .cfgm cap hints) →
    exec i s = .next t → t.valid = true → (idx.toNat + 1) * t.rb.toNat ≤ 64 * t.nw.toNat →
    exec (.get idx) t =
      .next { t with rsp := t.rsp ++ headerWord 0x00 t.nf.toNat :: List.replicate t.nf.toNat 0#64 }

/-! ## Snapshots -/

/-- `le64` gives the 8 bytes of a word, least significant first, and `from_le64` is its inverse (20_memory.md
R38). -/
def Obligations.LittleEndianBytes : Prop :=
  (∀ v : Word, (le64 v).length = 8 ∧ fromLe64 (le64 v) = v ∧
    ∀ (k : Nat) (hk : k < (le64 v).length), (le64 v)[k].toNat = v.toNat / 2 ^ (8 * k) % 2 ^ 8) ∧
  ∀ bs : List Byte, bs.length = 8 → le64 (fromLe64 bs) = bs

/-- The layout of a snapshot: the uniform header of 9 bytes or the multi-field header of `16 + NF`, then word `k`
little-endian from byte `8 k` on (44_snapshot.md R117, R118). -/
def Obligations.SnapshotLayout : Prop :=
  ∀ s : State, s.Inv → s.valid = true →
    (s.mode = .uniform → s.snapshot.length = 9 + 8 * s.nw.toNat ∧
      s.snapshot.take 9 = (s.widths.map (BitVec.ofNat 8)) ++ le64 (BitVec.ofNat 64 s.nw.toNat) ∧
      ∀ k < s.nw.toNat, (s.snapshot.drop (9 + 8 * k)).take 8 = le64 (s.mem.read k)) ∧
    (s.mode = .multi → s.snapshot.length = 16 + s.nf.toNat + 8 * s.nw.toNat ∧
      s.snapshot.take (16 + s.nf.toNat) =
        le64 (BitVec.ofNat 64 s.nf.toNat) ++ le64 (BitVec.ofNat 64 s.nw.toNat) ++
          s.widths.map (BitVec.ofNat 8) ∧
      ∀ k < s.nw.toNat, (s.snapshot.drop (16 + s.nf.toNat + 8 * k)).take 8 = le64 (s.mem.read k))

/-- DUMP gives the sink exactly the snapshot and answers OK, or, where the sink fails after fewer bytes, gives it
that proper prefix and answers IO_ERROR; the container is unchanged either way (44_snapshot.md R116, R119, R120; the
schedule of failures is the model's, log 14). -/
def Obligations.DumpDeliversTheSnapshot : Prop :=
  ∀ s : State, s.valid = true → s.snk.ready = true →
    (s.snk.stops = [] →
      exec .dump s = .next { s with snk := { s.snk with got := s.snk.got ++ s.snapshot, stops := [] },
                                    rsp := s.rsp ++ [0x0000000000000000#64] }) ∧
    (∀ r rs, s.snk.stops = r :: rs → s.snapshot.length ≤ r →
      exec .dump s =
        .next { s with snk := { s.snk with got := s.snk.got ++ s.snapshot, stops := (r - s.snapshot.length) :: rs },
                       rsp := s.rsp ++ [0x0000000000000000#64] }) ∧
    (∀ r rs, s.snk.stops = r :: rs → r < s.snapshot.length →
      exec .dump s = .next { s with snk := { s.snk with got := s.snk.got ++ s.snapshot.take r, stops := rs },
                                    rsp := s.rsp ++ [0x0100000000000000#64] })

/-- LDU on a source that delivers a uniform snapshot the core has room for: the declared container, OK, and exactly
`9 + 8 * NW` bytes consumed, wherever after them the source's next failure is scheduled; everything else stays
(44_snapshot.md R115, R121, R122, R124, R127; the schedule of failures is the model's, log 12). -/
def Obligations.LduLoadsTheSnapshot : Prop :=
  ∀ (s : State) (width : Byte) (words : List Word) (rest : List Byte), s.cfg.Legal →
    s.src.ready = true → (∀ r rs, s.src.stops = r :: rs → 9 + 8 * words.length ≤ r) →
    s.src.ahead = [width] ++ le64 (BitVec.ofNat 64 words.length) ++ words.flatMap le64 ++ rest →
    width.toNat ≤ 64 → words.length ≤ s.cfg.nwMax →
    ∃ t, exec .ldu s = .next t ∧ t.valid = true ∧ t.mode = .uniform ∧ t.nf.toNat = 1 ∧
      t.widths = [width.toNat] ∧ t.rb.toNat = width.toNat ∧ t.nw.toNat = words.length ∧
      (∀ (k : Nat) (hk : k < words.length), memRead t.nw.toNat t.mem k = some words[k]) ∧
      t = { s with valid := t.valid, mode := t.mode, nf := t.nf, fw := t.fw, rb := t.rb, nw := t.nw,
                   mem := t.mem,
                   src := { s.src with pos := s.src.pos + (9 + 8 * words.length),
                                       stops := stopsAfter s.src.stops (9 + 8 * words.length),
                                       taken := s.src.taken + (9 + 8 * words.length) },
                   rsp := s.rsp ++ [0x0000000000000000#64] }

/-- LDM on a source that delivers a multi-field snapshot the core has room for: the declared container, OK, and
exactly `16 + NF + 8 * NW` bytes consumed, wherever after them the source's next failure is scheduled; everything
else stays (44_snapshot.md R115, R121, R123, R124, R127; the schedule of failures is the model's, log 12). -/
def Obligations.LdmLoadsTheSnapshot : Prop :=
  ∀ (s : State) (widths : List Byte) (words : List Word) (rest : List Byte), s.cfg.Legal →
    s.src.ready = true → (∀ r rs, s.src.stops = r :: rs → 16 + widths.length + 8 * words.length ≤ r) →
    s.src.ahead = le64 (BitVec.ofNat 64 widths.length) ++ le64 (BitVec.ofNat 64 words.length) ++ widths ++
      words.flatMap le64 ++ rest →
    widths.length ≤ s.cfg.nfMax → (∀ w ∈ widths, w.toNat ≤ 64) → words.length ≤ s.cfg.nwMax →
    ∃ t, exec .ldm s = .next t ∧ t.valid = true ∧ t.mode = .multi ∧ t.nf.toNat = widths.length ∧
      t.widths = widths.map BitVec.toNat ∧ t.rb.toNat = (widths.map BitVec.toNat).sum ∧
      t.nw.toNat = words.length ∧
      (∀ (k : Nat) (hk : k < words.length), memRead t.nw.toNat t.mem k = some words[k]) ∧
      t = { s with valid := t.valid, mode := t.mode, nf := t.nf, fw := t.fw, rb := t.rb, nw := t.nw,
                   mem := t.mem,
                   src := { s.src with pos := s.src.pos + (16 + widths.length + 8 * words.length),
                                       stops := stopsAfter s.src.stops (16 + widths.length + 8 * words.length),
                                       taken := s.src.taken + (16 + widths.length + 8 * words.length) },
                   rsp := s.rsp ++ [0x0000000000000000#64] }

/-- LDU reports the first failing step: a short header, a width above 64, a word count above `NW_MAX`, a short word
(44_snapshot.md R125, R126); no container is left (R128). -/
def Obligations.LduReportsTheFirstFailure : Prop :=
  ∀ (s : State) (st : Status) (wc : Nat), s.src.ready = true → wc = (fromLe64 ((s.src.ahead.drop 1).take 8)).toNat →
    ((s.src.deliverable < 9 ∧ st = .ioError) ∨
      (9 ≤ s.src.deliverable ∧ (∃ w ∈ s.src.ahead.take 1, w.toNat > 64) ∧ st = .formatError) ∨
      (9 ≤ s.src.deliverable ∧ (∀ w ∈ s.src.ahead.take 1, w.toNat ≤ 64) ∧ wc > s.cfg.nwMax ∧
        st = .resourceError) ∨
      (9 ≤ s.src.deliverable ∧ (∀ w ∈ s.src.ahead.take 1, w.toNat ≤ 64) ∧ wc ≤ s.cfg.nwMax ∧
        s.src.deliverable < 9 + 8 * wc ∧ st = .ioError)) →
    ∃ t, exec .ldu s = .next t ∧ t.valid = false ∧ t.rsp = s.rsp ++ [rspHeader st 0] ∧ t.fault = s.fault ∧
      t.cfg = s.cfg ∧ t.cmd = s.cmd ∧ t.rspRoom = s.rspRoom ∧ t.unsent = s.unsent ∧ t.held = s.held ∧
      t.snk = s.snk ∧ t.rst = s.rst

/-- LDM reports the first failing step: a short count, a field count above `NF_MAX`, short width bytes, a width
above 64, a word count above `NW_MAX`, a short word (44_snapshot.md R125, R126); no container is left (R128). -/
def Obligations.LdmReportsTheFirstFailure : Prop :=
  ∀ (s : State) (st : Status) (nf wc : Nat), s.src.ready = true →
    nf = (fromLe64 (s.src.ahead.take 8)).toNat →
    wc = (fromLe64 ((s.src.ahead.drop 8).take 8)).toNat →
    ((s.src.deliverable < 16 ∧ st = .ioError) ∨
      (16 ≤ s.src.deliverable ∧ nf > s.cfg.nfMax ∧ st = .resourceError) ∨
      (16 ≤ s.src.deliverable ∧ nf ≤ s.cfg.nfMax ∧ s.src.deliverable < 16 + nf ∧ st = .ioError) ∨
      (16 + nf ≤ s.src.deliverable ∧ nf ≤ s.cfg.nfMax ∧
        (∃ w ∈ (s.src.ahead.drop 16).take nf, w.toNat > 64) ∧ st = .formatError) ∨
      (16 + nf ≤ s.src.deliverable ∧ nf ≤ s.cfg.nfMax ∧
        (∀ w ∈ (s.src.ahead.drop 16).take nf, w.toNat ≤ 64) ∧ wc > s.cfg.nwMax ∧ st = .resourceError) ∨
      (16 + nf ≤ s.src.deliverable ∧ nf ≤ s.cfg.nfMax ∧
        (∀ w ∈ (s.src.ahead.drop 16).take nf, w.toNat ≤ 64) ∧ wc ≤ s.cfg.nwMax ∧
        s.src.deliverable < 16 + nf + 8 * wc ∧ st = .ioError)) →
    ∃ t, exec .ldm s = .next t ∧ t.valid = false ∧ t.rsp = s.rsp ++ [rspHeader st 0] ∧ t.fault = s.fault ∧
      t.cfg = s.cfg ∧ t.cmd = s.cmd ∧ t.rspRoom = s.rspRoom ∧ t.unsent = s.unsent ∧ t.held = s.held ∧
      t.snk = s.snk ∧ t.rst = s.rst

/-- Snapshot round trip: the load command of the container's mode, on a source that delivers its snapshot, on a
core with room, answers OK, leaves the same container and has taken exactly the snapshot's bytes, wherever after them
the source's next failure is scheduled (44_snapshot.md R127, R129). -/
def Obligations.SnapshotRoundTrip : Prop :=
  ∀ (s u : State) (rest : List Byte), s.Inv → s.valid = true → u.cfg.Legal →
    s.cfg.nfMax ≤ u.cfg.nfMax → s.cfg.nwMax ≤ u.cfg.nwMax → u.src.ready = true →
    (∀ r rs, u.src.stops = r :: rs → s.snapshot.length ≤ r) →
    u.src.ahead = s.snapshot ++ rest →
    ∃ t, exec (if s.mode = .uniform then .ldu else .ldm) u = .next t ∧ t.valid = true ∧ t.mode = s.mode ∧
      t.nf = s.nf ∧ t.widths = s.widths ∧ t.rb = s.rb ∧ t.nw = s.nw ∧ t.mem = s.mem ∧
      t.src = u.src.advance s.snapshot.length ∧
      t.rsp = u.rsp ++ [0x0000000000000000#64]
end

