-- ==== Sys2Proof/Laws/Combinators.lean ====
section
/-! SUPPORT. The combinators bit by bit, on their domains. -/

namespace Sys2Proof.Machine

theorem mask_getLsbD {w : Nat} (hw : w ≤ 64) (j : Nat) : (mask w).getLsbD j = decide (j < w) := by
  have hp : (1 : Nat) ≤ 2 ^ w := Nat.one_le_two_pow
  rw [mask, if_pos hw, BitVec.getLsbD_ofNat, Nat.testBit_two_pow_sub_one]
  by_cases h : j < w <;> simp [h]; omega

theorem shl_getLsbD (x : Word) {s : Nat} (hs : s < 64) (j : Nat) :
    (shl x s).getLsbD j = (decide (j < 64) && !decide (j < s) && x.getLsbD (j - s)) := by
  simp [shl, hs, BitVec.getLsbD_shiftLeft]

theorem shr_getLsbD (x : Word) {s : Nat} (hs : s < 64) (j : Nat) :
    (shr x s).getLsbD j = x.getLsbD (s + j) := by
  simp [shr, hs, BitVec.getLsbD_ushiftRight]

theorem extract_getLsbD (x : Word) {r w : Nat} (hr : r < 64) (hw : w ≤ 64) (j : Nat) :
    (extract x r w).getLsbD j = (x.getLsbD (r + j) && decide (j < w)) := by
  simp [extract, shr_getLsbD x hr, mask_getLsbD hw]

theorem deposit_getLsbD (x v : Word) {r w : Nat} (hr : r < 64) (hw : r + w ≤ 64) (j : Nat) :
    (deposit x r w v).getLsbD j = if r ≤ j ∧ j < r + w then v.getLsbD (j - r) else x.getLsbD j := by
  have hw' : w ≤ 64 := by omega
  simp only [deposit, BitVec.getLsbD_or, BitVec.getLsbD_and, BitVec.getLsbD_not, shl_getLsbD _ hr,
    mask_getLsbD hw']
  by_cases h : r ≤ j ∧ j < r + w
  · have h1 : j < 64 := by omega
    have h2 : ¬ j < r := by omega
    have h3 : j - r < w := by omega
    simp [h, h1, h2, h3]
  · rw [if_neg h]
    by_cases h1 : j < 64
    · by_cases h2 : j < r
      · simp [h1, h2]
      · have h3 : ¬ j - r < w := by omega
        simp [h1, h2, h3]
    · simp [h1, BitVec.getLsbD_of_ge x j (by omega)]

theorem splitLo_getLsbD (v : Word) {lo : Nat} (h : lo ≤ 64) (j : Nat) :
    (splitLo v lo).getLsbD j = (v.getLsbD j && decide (j < lo)) := by
  simp [splitLo, mask_getLsbD h]

theorem splitHi_getLsbD (v : Word) {lo : Nat} (h : lo < 64) (j : Nat) :
    (splitHi v lo).getLsbD j = v.getLsbD (lo + j) := shr_getLsbD v h j

theorem join_getLsbD (a b : Word) {lo : Nat} (h : lo < 64) (j : Nat) :
    (join a b lo).getLsbD j = (a.getLsbD j || (decide (j < 64) && !decide (j < lo) && b.getLsbD (j - lo))) := by
  simp [join, shl_getLsbD b h]

/-- The width derivation loop is right once it has turns enough. -/
theorem bitWidthLoop_spec (fuel : Nat) (m : Word) (h : m.toNat < 2 ^ fuel) :
    m.toNat < 2 ^ bitWidthLoop fuel m ∧ ∀ j, m.toNat < 2 ^ j → bitWidthLoop fuel m ≤ j := by
  induction fuel generalizing m with
  | zero => exact ⟨by simpa [bitWidthLoop] using h, fun j _ => by simp [bitWidthLoop]⟩
  | succ f ih =>
    by_cases h0 : m = 0
    · subst m; simp [bitWidthLoop]
    · have hpos : m.toNat ≠ 0 := fun e => h0 (BitVec.eq_of_toNat_eq (by simpa using e))
      have hshr : (shr m 1).toNat = m.toNat / 2 := by simp [shr, Nat.shiftRight_eq_div_pow]
      have hlt : (shr m 1).toNat < 2 ^ f := by
        rw [hshr]; rw [Nat.pow_succ] at h; omega
      obtain ⟨h1, h2⟩ := ih (shr m 1) hlt
      simp only [bitWidthLoop, if_neg h0]
      refine ⟨?_, fun j hj => ?_⟩
      · rw [hshr] at h1; rw [Nat.pow_succ]; omega
      · cases j with
        | zero => simp at hj; omega
        | succ j =>
          have := h2 j (by rw [hshr]; rw [Nat.pow_succ] at hj; omega)
          omega

theorem bitWidthLoop_le (fuel : Nat) (m : Word) : bitWidthLoop fuel m ≤ fuel := by
  induction fuel generalizing m with
  | zero => simp [bitWidthLoop]
  | succ f ih =>
    simp only [bitWidthLoop]
    split
    · omega
    · have := ih (shr m 1); omega

theorem bitWidth_le (m : Word) : bitWidth m ≤ 64 := bitWidthLoop_le 64 m

theorem sum_le_of_le {ws : List Nat} {k : Nat} (h : ∀ w ∈ ws, w ≤ k) : ws.sum ≤ k * ws.length := by
  induction ws with
  | nil => simp
  | cons w ws ih =>
    have h1 := ih fun x hx => h x (by simp [hx])
    have h2 := h w (by simp)
    simp only [List.sum_cons, List.length_cons, Nat.mul_add]
    omega

/-- The cursor moves by the field's width (41_address_generation.md R83). -/
theorem advance_offset (p : Nat) {r w : Nat} : 64 * (advance p r w).1 + (advance p r w).2 = 64 * p + r + w := by
  unfold advance; split <;> simp <;> omega

theorem advance_bit (p : Nat) {r w : Nat} (hr : r < 64) (hw : w ≤ 64) : (advance p r w).2 < 64 := by
  unfold advance; split <;> simp <;> omega

end Sys2Proof.Machine
end

