-- ==== Sys2Proof/Laws/Decode.lean ====
section
/-! SUPPORT. The fields of a header beat as numbers, and what each part of the decoder answers. The powers of two stay
powers (rw, not simp): as numerals they make the kernel count. -/

namespace Sys2Proof

theorem headerOp_eq (h : Word) : headerOp h = h.toNat / 2 ^ 56 := by
  unfold headerOp
  rw [BitVec.extractLsb'_toNat, Nat.shiftRight_eq_div_pow]
  have := h.isLt
  apply Nat.mod_eq_of_lt
  omega

theorem headerCount_eq (h : Word) : headerCount h = h.toNat / 2 ^ 48 % 2 ^ 8 := by
  unfold headerCount
  rw [BitVec.extractLsb'_toNat, Nat.shiftRight_eq_div_pow]

theorem headerZero_eq (h : Word) : headerZero h = h.toNat % 2 ^ 48 := by
  unfold headerZero
  rw [BitVec.extractLsb'_toNat, Nat.shiftRight_zero]

theorem headerOp_lt (h : Word) : headerOp h < 256 := BitVec.isLt _

theorem headerCount_lt (h : Word) : headerCount h < 256 := BitVec.isLt _

theorem headerWord_toNat {op n : Nat} (ho : op < 256) (hn : n < 256) :
    (headerWord op n).toNat = op * 2 ^ 56 + n * 2 ^ 48 := by
  unfold headerWord
  rw [BitVec.toNat_ofNat]
  apply Nat.mod_eq_of_lt
  omega

theorem headerOp_headerWord {op n : Nat} (ho : op < 256) (hn : n < 256) : headerOp (headerWord op n) = op := by
  rw [headerOp_eq, headerWord_toNat ho hn]
  omega

theorem headerCount_headerWord {op n : Nat} (ho : op < 256) (hn : n < 256) :
    headerCount (headerWord op n) = n := by
  rw [headerCount_eq, headerWord_toNat ho hn]
  omega

theorem headerZero_headerWord {op n : Nat} (ho : op < 256) (hn : n < 256) :
    headerZero (headerWord op n) = 0 := by
  rw [headerZero_eq, headerWord_toNat ho hn]
  omega

/-- A header beat with no reserved bit set is the number of R47. -/
theorem headerWord_of_fields {h : Word} (hz : headerZero h = 0) : headerWord (headerOp h) (headerCount h) = h := by
  apply BitVec.eq_of_toNat_eq
  rw [headerWord_toNat (headerOp_lt h) (headerCount_lt h), headerOp_eq, headerCount_eq]
  rw [headerZero_eq] at hz
  have := h.isLt
  omega

theorem Opcode.code_lt (op : Opcode) : op.code < 256 := by cases op <;> decide

@[simp] theorem Opcode.ofCode_code (op : Opcode) : Opcode.ofCode op.code = some op := by cases op <;> rfl

theorem Opcode.code_of_ofCode {n : Nat} {op : Opcode} (h : Opcode.ofCode n = some op) : n = op.code := by
  unfold Opcode.ofCode at h
  split at h <;> cases h <;> rfl

/-- A number that is no opcode's is 0 or above 9 (30_encoding.md R51 a). -/
theorem Opcode.ofCode_eq_none {n : Nat} : Opcode.ofCode n = none ↔ n = 0 ∨ 0x0A ≤ n := by
  constructor
  · intro h
    by_contra hc
    push Not at hc
    obtain ⟨h0, h9⟩ := hc
    interval_cases n <;> simp_all [Opcode.ofCode]
  · intro h
    cases e : Opcode.ofCode n with
    | none => rfl
    | some op =>
      have := Opcode.code_of_ofCode e
      cases op <;> simp [Opcode.code] at this <;> omega

/-- What the decoding of a header beat answers. -/
theorem decodeHeader_eq_ok {h : Word} {op : Opcode} {n : Nat} :
    decodeHeader h = .ok (op, n) ↔ h = headerWord op.code n ∧ n < 256 ∧ op.countLegal n = true := by
  constructor
  · intro e
    unfold decodeHeader at e
    split at e
    · cases e
    · rename_i hz
      split at e
      · cases e
      · rename_i op' hop
        split at e
        · cases e
          refine ⟨?_, headerCount_lt h, ‹_›⟩
          rw [← Opcode.code_of_ofCode hop, headerWord_of_fields (not_not.1 hz)]
        · cases e
  · rintro ⟨rfl, hn, hl⟩
    unfold decodeHeader
    rw [headerZero_headerWord op.code_lt hn, headerOp_headerWord op.code_lt hn,
      headerCount_headerWord op.code_lt hn, Opcode.ofCode_code]
    simp [hl]

/-- A command's operand beats fit its opcode, in number and in kind. -/
theorem Instr.assemble_operands (i : Instr) : assemble i.opcode (i.scalar ++ i.vector) = some i := by
  cases i <;> rfl

theorem Instr.countLegal_vector (i : Instr) : i.opcode.countLegal i.vector.length = true := by
  cases i <;> rfl

theorem Instr.vector_length_lt {i : Instr} (h : i.wellFormed = true) : i.vector.length < 256 := by
  unfold Instr.wellFormed at h
  unfold Instr.vector
  cases i with
  | cfgm a vs => have := of_decide_eq_true h; show vs.length < 256; omega
  | set a vs => have := of_decide_eq_true h; show vs.length < 256; omega
  | _ => simp

theorem Instr.operands_length (i : Instr) :
    (i.scalar ++ i.vector).length = i.opcode.frameBeats i.vector.length - 1 := by
  cases i <;> simp [Instr.opcode, Opcode.frameBeats, Opcode.hasScalar, Instr.vector, Instr.scalar, Nat.add_comm]

/-- The command assembled from an opcode and operand beats has that opcode and those beats. -/
theorem assemble_eq_some {op : Opcode} {xs : List Word} {i : Instr} (h : assemble op xs = some i) :
    i.opcode = op ∧ i.scalar ++ i.vector = xs := by
  match op, xs, h with
  | .bitw, [_], h => cases h; exact ⟨rfl, rfl⟩
  | .cfgu, [_, _], h => cases h; exact ⟨rfl, rfl⟩
  | .cfgm, _ :: _, h => cases h; exact ⟨rfl, rfl⟩
  | .cap, [], h => cases h; exact ⟨rfl, rfl⟩
  | .set, _ :: _, h => cases h; exact ⟨rfl, rfl⟩
  | .get, [_], h => cases h; exact ⟨rfl, rfl⟩
  | .dump, [], h => cases h; exact ⟨rfl, rfl⟩
  | .ldu, [], h => cases h; exact ⟨rfl, rfl⟩
  | .ldm, [], h => cases h; exact ⟨rfl, rfl⟩

/-- A legal header followed by its operand beats is a frame. -/
theorem decode_frame {h : Word} {op : Opcode} {n : Nat} {xs rest : List Word} {i : Instr}
    (hd : decodeHeader h = .ok (op, n)) (hl : xs.length = op.frameBeats n - 1) (ha : assemble op xs = some i) :
    decode (h :: (xs ++ rest)) = .frame i rest := by
  simp only [decode, hd]
  rw [if_neg (by rw [List.length_append, hl]; omega), ← hl, List.take_left, ha, List.drop_left]

/-- A legal header followed by fewer beats than its operands is no frame yet. -/
theorem decode_short {h : Word} {op : Opcode} {n : Nat} {xs : List Word}
    (hd : decodeHeader h = .ok (op, n)) (hl : xs.length < op.frameBeats n - 1) :
    decode (h :: xs) = .incomplete := by
  simp only [decode, hd]
  rw [if_pos hl]

/-- Beats that decode to a command start with its legal header, then its operand beats. -/
theorem decode_eq_frame {h : Word} {ys rest : List Word} {i : Instr} (e : decode (h :: ys) = .frame i rest) :
    ∃ n, decodeHeader h = .ok (i.opcode, n) ∧ (i.scalar ++ i.vector).length = i.opcode.frameBeats n - 1 ∧
      ys = i.scalar ++ i.vector ++ rest := by
  simp only [decode] at e
  split at e
  · cases e
  · rename_i op n hd
    split at e
    · cases e
    · rename_i hl
      split at e
      · rename_i j hj
        cases e
        obtain ⟨rfl, hx⟩ := assemble_eq_some hj
        refine ⟨n, hd, ?_, ?_⟩
        · rw [hx, List.length_take]; omega
        · rw [hx, List.take_append_drop]
      · cases e

/-- Beats that are an illegal header first are illegal because of that header alone. -/
theorem decode_eq_illegal {h : Word} {ys rest : List Word} {why : Reject} :
    decode (h :: ys) = .illegal why rest ↔ decodeHeader h = .error why ∧ rest = ys := by
  simp only [decode]
  split
  · rename_i w hd
    constructor
    · intro e; cases e; exact ⟨hd, rfl⟩
    · rintro ⟨e, rfl⟩; cases hd.symm.trans e; rfl
  · rename_i hd
    constructor
    · intro e; split at e
      · cases e
      · split at e <;> cases e
    · rintro ⟨e, -⟩; rw [hd] at e; cases e

/-- A well-formed command's header is legal. -/
theorem Instr.decodeHeader_header {i : Instr} (h : i.wellFormed = true) :
    decodeHeader (headerWord i.opcode.code i.vector.length) = .ok (i.opcode, i.vector.length) :=
  decodeHeader_eq_ok.2 ⟨rfl, Instr.vector_length_lt h, i.countLegal_vector⟩

end Sys2Proof
end

