-- ==== Sys2Proof/Laws/Memory.lean ====
section
/-! SUPPORT. The laws of storage: a read after a write, the canonical form kept by every operation, and equality of
canonical storages that read alike. -/

namespace Sys2Proof.Machine

@[simp] theorem Memory.read_nil (p : Nat) : Memory.read [] p = blankWord := rfl

theorem Memory.read_cons (q : Nat) (x : Word) (m : Memory) (p : Nat) :
    Memory.read ((q, x) :: m) p = if p = q then x else Memory.read m p := rfl

/-- Below every listed address a word is blank. -/
theorem Memory.read_of_below (m : Memory) (p : Nat) (h : ∀ c ∈ m, p < c.1) : m.read p = blankWord := by
  induction m with
  | nil => rfl
  | cons c m ih =>
    obtain ⟨q, x⟩ := c
    have hq : p < q := h (q, x) (by simp)
    rw [Memory.read_cons, if_neg (by omega)]
    exact ih fun c hc => h c (by simp [hc])

theorem Memory.wf_nil : Memory.wf [] := by simp [Memory.wf]

theorem Memory.wf_cons {q : Nat} {x : Word} {m : Memory} :
    Memory.wf ((q, x) :: m) ↔ (∀ c ∈ m, q < c.1) ∧ x ≠ blankWord ∧ Memory.wf m := by
  simp only [Memory.wf, List.pairwise_cons, List.mem_cons, forall_eq_or_imp]
  tauto

/-- Every address a write leaves listed was listed or is the one written. -/
theorem Memory.mem_write {m : Memory} {p : Nat} {v : Word} {c : Nat × Word} (h : c ∈ m.write p v) :
    c ∈ m ∨ c = (p, v) := by
  induction m with
  | nil => simp only [Memory.write] at h; split at h <;> simp_all
  | cons d m ih =>
    obtain ⟨q, x⟩ := d
    simp only [Memory.write] at h
    split at h
    · split at h
      · exact .inl h
      · simp only [List.mem_cons] at h ⊢; tauto
    · split at h
      · split at h
        · exact .inl (by simp [h])
        · simp only [List.mem_cons] at h ⊢; tauto
      · simp only [List.mem_cons] at h ⊢
        rcases h with h | h
        · tauto
        · have := ih h; tauto

/-- A write keeps the canonical form. -/
theorem Memory.wf_write {m : Memory} (p : Nat) (v : Word) (h : m.wf) : (m.write p v).wf := by
  induction m with
  | nil => simp only [Memory.write]; split <;> simp_all [Memory.wf]
  | cons d m ih =>
    obtain ⟨q, x⟩ := d
    obtain ⟨hlo, hx, hm⟩ := Memory.wf_cons.1 h
    simp only [Memory.write]
    split
    · split
      · exact h
      · refine Memory.wf_cons.2 ⟨?_, ‹_›, h⟩
        simp only [List.mem_cons, forall_eq_or_imp]
        exact ⟨‹_›, fun c hc => lt_trans ‹_› (hlo c hc)⟩
    · split
      · subst p; split
        · exact hm
        · exact Memory.wf_cons.2 ⟨hlo, ‹_›, hm⟩
      · refine Memory.wf_cons.2 ⟨fun c hc => ?_, hx, ih hm⟩
        rcases Memory.mem_write hc with hc | rfl
        · exact hlo c hc
        · show q < p; omega

/-- A word reads as what was last written there. -/
theorem Memory.read_write_same {m : Memory} (p : Nat) (v : Word) (h : m.wf) : (m.write p v).read p = v := by
  induction m with
  | nil => simp only [Memory.write]; split <;> simp_all [Memory.read_cons]
  | cons d m ih =>
    obtain ⟨q, x⟩ := d
    obtain ⟨hlo, hx, hm⟩ := Memory.wf_cons.1 h
    simp only [Memory.write]
    split
    · split
      · subst v
        refine Memory.read_of_below _ _ ?_
        simp only [List.mem_cons, forall_eq_or_imp]
        exact ⟨‹_›, fun c hc => lt_trans ‹_› (hlo c hc)⟩
      · simp [Memory.read_cons]
    · split
      · subst p; split
        · subst v; exact Memory.read_of_below _ _ hlo
        · simp [Memory.read_cons]
      · rw [Memory.read_cons, if_neg ‹_›, ih hm]

/-- A write leaves every other word alone. -/
theorem Memory.read_write_other {m : Memory} {p r : Nat} (v : Word) (h : m.wf) (hr : r ≠ p) :
    (m.write p v).read r = m.read r := by
  induction m with
  | nil => simp only [Memory.write]; split <;> simp_all [Memory.read_cons]
  | cons d m ih =>
    obtain ⟨q, x⟩ := d
    obtain ⟨hlo, hx, hm⟩ := Memory.wf_cons.1 h
    simp only [Memory.write]
    split
    · split
      · rfl
      · rw [Memory.read_cons, if_neg hr]
    · split
      · subst p; split
        · rw [Memory.read_cons, if_neg hr]
        · rw [Memory.read_cons, Memory.read_cons, if_neg hr, if_neg hr]
      · rw [Memory.read_cons, Memory.read_cons, ih hm]

theorem Memory.read_write {m : Memory} (p r : Nat) (v : Word) (h : m.wf) :
    (m.write p v).read r = if r = p then v else m.read r := by
  split
  · subst r; exact Memory.read_write_same p v h
  · exact Memory.read_write_other v h ‹_›

/-- Writes done in order from blank storage give canonical storage. -/
theorem Memory.wf_ofCells (cells : List (Nat × Word)) : (Memory.ofCells cells).wf := by
  unfold Memory.ofCells
  suffices ∀ (cs : List (Nat × Word)) (m : Memory), m.wf →
      (cs.foldl (fun m c => Memory.write m c.1 c.2) m).wf from this cells [] Memory.wf_nil
  intro cs
  induction cs with
  | nil => exact fun _ h => h
  | cons c cs ih => exact fun m h => ih _ (Memory.wf_write _ _ h)

/-- A word that is not blank is listed. -/
theorem Memory.mem_of_read {m : Memory} {p : Nat} (h : m.read p ≠ blankWord) : ∃ c ∈ m, c.1 = p := by
  by_contra hc
  push Not at hc
  refine h ?_
  clear h
  induction m with
  | nil => rfl
  | cons d m ih =>
    obtain ⟨q, x⟩ := d
    rw [Memory.read_cons, if_neg (fun e => hc (q, x) (by simp) e.symm)]
    exact ih fun c hm => hc c (by simp [hm])

/-- Canonical storages that read alike are equal. -/
theorem Memory.ext_of_read {m m' : Memory} (h : m.wf) (h' : m'.wf) (e : ∀ p, m.read p = m'.read p) : m = m' := by
  induction m generalizing m' with
  | nil =>
    cases m' with
    | nil => rfl
    | cons d m' =>
      obtain ⟨q, x⟩ := d
      have := e q
      simp [Memory.read_cons] at this
      exact absurd this.symm (Memory.wf_cons.1 h').2.1
  | cons d m ih =>
    obtain ⟨q, x⟩ := d
    obtain ⟨hlo, hx, hm⟩ := Memory.wf_cons.1 h
    cases m' with
    | nil =>
      have := e q
      simp [Memory.read_cons] at this
      exact absurd this hx
    | cons d' m' =>
      obtain ⟨q', x'⟩ := d'
      obtain ⟨hlo', hx', hm'⟩ := Memory.wf_cons.1 h'
      have hqq : q = q' := by
        rcases lt_trichotomy q q' with hlt | heq | hgt
        · have h1 := e q
          rw [Memory.read_cons, if_pos rfl, Memory.read_of_below] at h1
          · exact absurd h1 hx
          · simp only [List.mem_cons, forall_eq_or_imp]
            exact ⟨hlt, fun c hc => lt_trans hlt (hlo' c hc)⟩
        · exact heq
        · have h1 := e q'
          rw [Memory.read_of_below, Memory.read_cons, if_pos rfl] at h1
          · exact absurd h1.symm hx'
          · simp only [List.mem_cons, forall_eq_or_imp]
            exact ⟨hgt, fun c hc => lt_trans hgt (hlo c hc)⟩
      subst q'
      have hxx : x = x' := by have := e q; simpa [Memory.read_cons] using this
      subst x'
      rw [ih hm hm' fun p => ?_]
      by_cases hp : p = q
      · subst p; rw [Memory.read_of_below _ _ hlo, Memory.read_of_below _ _ hlo']
      · have := e p; simpa [Memory.read_cons, hp] using this

/-- What `MemRead` answers. -/
theorem memRead_eq_some {nw : Nat} {m : Memory} {p : Nat} {x : Word} :
    memRead nw m p = some x ↔ p < nw ∧ m.read p = x := by
  unfold memRead; split <;> simp_all

/-- What `MemWrite` answers. -/
theorem memWrite_eq_some {nw : Nat} {m m' : Memory} {p : Nat} {v : Word} :
    memWrite nw m p v = some m' ↔ p < nw ∧ m.write p v = m' := by
  unfold memWrite; split <;> simp_all

end Sys2Proof.Machine
end

