-- ==== Sys2Proof/Laws/Engine.lean ====
section
/-! SUPPORT. What the read and write engine does, bit by bit: one lemma per field access and one per loop. -/

namespace Sys2Proof.Machine

/-- The bit at offset `64 * p + r` is bit `r` of word `p`. -/
theorem Memory.bitAt_mul_add (m : Memory) (p : Nat) {r : Nat} (hr : r < 64) :
    m.bitAt (64 * p + r) = (m.read p).getLsbD r := by
  unfold Memory.bitAt wordOf bitOf
  rw [show (64 * p + r) / 64 = p by omega, show (64 * p + r) % 64 = r by omega]

/-- Canonical storages equal at every bit are equal. -/
theorem Memory.ext_of_bitAt {m m' : Memory} (h : m.wf) (h' : m'.wf) (e : ∀ b, m.bitAt b = m'.bitAt b) :
    m = m' := by
  refine Memory.ext_of_read h h' fun p => BitVec.eq_of_getLsbD_eq fun j hj => ?_
  rw [← Memory.bitAt_mul_add m p hj, ← Memory.bitAt_mul_add m' p hj, e]

/-- A word deposited at `(p, r)` in place of `w` bits. -/
theorem Memory.bitAt_write_deposit {m : Memory} (hm : m.wf) (p : Nat) {r w : Nat} (v : Word) (hr : r < 64)
    (hw : r + w ≤ 64) (b : Nat) :
    (m.write p (deposit (m.read p) r w v)).bitAt b =
      if 64 * p + r ≤ b ∧ b < 64 * p + r + w then v.getLsbD (b - (64 * p + r)) else m.bitAt b := by
  have hb : b = 64 * (b / 64) + b % 64 := by omega
  have hlt : b % 64 < 64 := by omega
  rw [hb, Memory.bitAt_mul_add _ _ hlt, Memory.bitAt_mul_add _ _ hlt, Memory.read_write _ _ _ hm]
  by_cases hp : b / 64 = p
  · rw [if_pos hp, deposit_getLsbD _ _ hr hw, hp]
    by_cases hc : r ≤ b % 64 ∧ b % 64 < r + w
    · rw [if_pos hc, if_pos (by omega)]; congr 1; omega
    · rw [if_neg hc, if_neg (by omega)]
  · rw [if_neg hp, if_neg (by omega)]

/-- A field write: it succeeds on storage that holds the field, keeps the canonical form, changes exactly the
field's bits, and lists no new address outside the container. -/
theorem writeField_spec {nw : Nat} {m : Memory} {p r w : Nat} (v : Word) (hm : m.wf) (hr : r < 64) (hw : w ≤ 64)
    (hin : 64 * p + r + w ≤ 64 * nw) :
    ∃ m', writeField nw m p r w v = some m' ∧ m'.wf ∧
      (∀ b, m'.bitAt b =
        if 64 * p + r ≤ b ∧ b < 64 * p + r + w then v.getLsbD (b - (64 * p + r)) else m.bitAt b) ∧
      ((∀ c ∈ m, c.1 < nw) → ∀ c ∈ m', c.1 < nw) := by
  have hcells : ∀ {m0 : Memory} {q : Nat} {x : Word}, q < nw → (∀ c ∈ m0, c.1 < nw) →
      ∀ c ∈ m0.write q x, c.1 < nw := by
    intro m0 q x hq h0 c hc
    rcases Memory.mem_write hc with hc | rfl
    · exact h0 c hc
    · exact hq
  unfold writeField fieldCase
  by_cases h0 : w = 0
  · subst w
    refine ⟨m, by simp, hm, fun b => ?_, fun h => h⟩
    rw [if_neg (by omega)]
  · rw [if_neg h0]
    by_cases hc : r + w ≤ 64
    · have hp : p < nw := by omega
      rw [if_pos hc]
      refine ⟨m.write p (deposit (m.read p) r w v), by simp [writeNC, memRead, memWrite, hp],
        Memory.wf_write _ _ hm, Memory.bitAt_write_deposit hm p v hr hc, hcells hp⟩
    · have hp : p < nw := by omega
      have hp1 : p + 1 < nw := by omega
      rw [if_neg hc]
      have hm1 := Memory.wf_write p (deposit (m.read p) r (64 - r) (splitLo (v &&& mask w) (64 - r))) hm
      refine ⟨_, by simp only [writeX, memRead, memWrite, hp, hp1, if_true]; rfl, Memory.wf_write _ _ hm1, fun b => ?_,
        fun h => hcells hp1 (hcells hp h)⟩
      rw [Memory.bitAt_write_deposit hm1 (p + 1) (r := 0) _ (by omega) (by omega),
        Memory.bitAt_write_deposit hm p _ hr (by omega), splitHi_getLsbD _ (by omega),
        splitLo_getLsbD _ (by omega)]
      simp only [BitVec.getLsbD_and, mask_getLsbD hw]
      by_cases ha : 64 * (p + 1) + 0 ≤ b ∧ b < 64 * (p + 1) + 0 + (w - (64 - r))
      · rw [if_pos ha, if_pos (by omega),
          show 64 - r + (b - (64 * (p + 1) + 0)) = b - (64 * p + r) by omega]
        simp; omega
      · rw [if_neg ha]
        by_cases hb : 64 * p + r ≤ b ∧ b < 64 * p + r + (64 - r)
        · rw [if_pos hb, if_pos (by omega)]
          have h1 : b - (64 * p + r) < w := by omega
          have h2 : b - (64 * p + r) < 64 - r := by omega
          simp [h1, h2]
        · rw [if_neg hb, if_neg (by omega)]

/-- A field read: it succeeds on storage that holds the field, and answers its bits, zero-extended. -/
theorem readField_spec {nw : Nat} (m : Memory) {p r w : Nat} (hr : r < 64) (hw : w ≤ 64)
    (hin : 64 * p + r + w ≤ 64 * nw) :
    ∃ q, readField nw m p r w = some q ∧
      ∀ j, q.getLsbD j = (decide (j < w) && m.bitAt (64 * p + r + j)) := by
  unfold readField fieldCase
  by_cases h0 : w = 0
  · subst w; exact ⟨0, by simp, fun j => by simp⟩
  · rw [if_neg h0]
    by_cases hc : r + w ≤ 64
    · have hp : p < nw := by omega
      rw [if_pos hc]
      refine ⟨extract (m.read p) r w, by simp [readNC, memRead, hp], fun j => ?_⟩
      rw [extract_getLsbD _ hr hw]
      by_cases hj : j < w
      · rw [show 64 * p + r + j = 64 * p + (r + j) by omega, Memory.bitAt_mul_add _ _ (by omega)]
        simp [hj]
      · simp [hj]
    · have hp : p < nw := by omega
      have hp1 : p + 1 < nw := by omega
      rw [if_neg hc]
      refine ⟨_, by simp only [readX, memRead, hp, hp1, if_true]; rfl, fun j => ?_⟩
      simp only [BitVec.getLsbD_and, mask_getLsbD hw, join_getLsbD _ _ (show 64 - r < 64 by omega),
        shr_getLsbD _ hr, mask_getLsbD (show w - (64 - r) ≤ 64 by omega)]
      by_cases hj : j < w
      · by_cases hlo : j < 64 - r
        · rw [show 64 * p + r + j = 64 * p + (r + j) by omega, Memory.bitAt_mul_add _ _ (by omega)]
          simp [hj, hlo]
        · rw [show 64 * p + r + j = 64 * (p + 1) + (j - (64 - r)) by omega,
            Memory.bitAt_mul_add _ _ (by omega), BitVec.getLsbD_of_ge _ (r + j) (by omega)]
          have h1 : j < 64 := by omega
          have h2 : j - (64 - r) < w - (64 - r) := by omega
          simp [hj, hlo, h1, h2]
      · simp [hj]

/-- The loop of SET on the fields of one record: it succeeds on storage that holds them, keeps the canonical form,
writes each field's bits and changes no bit outside the record. -/
theorem writeFields_spec {nw : Nat} (fs : List (Nat × Word)) {p r : Nat} {m : Memory} (hm : m.wf) (hr : r < 64)
    (hw : ∀ f ∈ fs, f.1 ≤ 64) (hin : 64 * p + r + (fs.map Prod.fst).sum ≤ 64 * nw) :
    ∃ m', writeFields nw fs p r m = some m' ∧ m'.wf ∧
      (∀ (i : Nat) (hi : i < fs.length) (j : Nat), j < fs[i].1 →
        m'.bitAt (64 * p + r + ((fs.map Prod.fst).take i).sum + j) = fs[i].2.getLsbD j) ∧
      (∀ b, b < 64 * p + r ∨ 64 * p + r + (fs.map Prod.fst).sum ≤ b → m'.bitAt b = m.bitAt b) ∧
      ((∀ c ∈ m, c.1 < nw) → ∀ c ∈ m', c.1 < nw) := by
  induction fs generalizing p r m with
  | nil => exact ⟨m, rfl, hm, fun i hi => absurd hi (by simp), fun _ _ => rfl, fun h => h⟩
  | cons f fs ih =>
    obtain ⟨w, v⟩ := f
    simp only [List.map_cons, List.sum_cons] at hin ⊢
    have hw0 : w ≤ 64 := hw (w, v) (by simp)
    obtain ⟨m1, e1, wf1, b1, c1⟩ := writeField_spec (nw := nw) (p := p) v hm hr hw0 (by omega)
    have hadv := advance_offset p (r := r) (w := w)
    obtain ⟨m', e', wf', hset, hout, c'⟩ := ih (p := (advance p r w).1) (r := (advance p r w).2) wf1
      (advance_bit p hr hw0) (fun f hf => hw f (by simp [hf])) (by omega)
    refine ⟨m', by simp [writeFields, e1, e'], wf', fun i hi j hj => ?_, fun b hb => ?_, fun h => c' (c1 h)⟩
    · cases i with
      | zero =>
        simp only [List.getElem_cons_zero] at hj ⊢
        simp only [List.take_zero, List.sum_nil, Nat.add_zero]
        rw [hout _ (by omega), b1, if_pos (by omega)]
        congr 1; omega
      | succ i =>
        simp only [List.getElem_cons_succ] at hj ⊢
        simp only [List.take_succ_cons, List.sum_cons]
        rw [← hset i (by simpa using hi) j hj]
        congr 1; omega
    · rw [hout b (by omega), b1, if_neg (by omega)]

/-- The loop of GET on the fields of one record: it succeeds on storage that holds them, one result per field. -/
theorem readFields_spec {nw : Nat} (m : Memory) (ws : List Nat) {p r : Nat} (hr : r < 64)
    (hw : ∀ w ∈ ws, w ≤ 64) (hin : 64 * p + r + ws.sum ≤ 64 * nw) :
    ∃ qs, readFields nw m ws p r = some qs ∧ qs.length = ws.length ∧
      ∀ (i : Nat) (hi : i < ws.length) (hq : i < qs.length) (j : Nat),
        qs[i].getLsbD j = (decide (j < ws[i]) && m.bitAt (64 * p + r + (ws.take i).sum + j)) := by
  induction ws generalizing p r with
  | nil => exact ⟨[], rfl, rfl, fun i hi => absurd hi (by simp)⟩
  | cons w ws ih =>
    simp only [List.sum_cons] at hin
    have hw0 : w ≤ 64 := hw w (by simp)
    obtain ⟨q, eq, hq⟩ := readField_spec (nw := nw) m (p := p) hr hw0 (by omega)
    have hadv := advance_offset p (r := r) (w := w)
    obtain ⟨qs, eqs, hl, hqs⟩ := ih (p := (advance p r w).1) (r := (advance p r w).2)
      (advance_bit p hr hw0) (fun x hx => hw x (by simp [hx])) (by omega)
    refine ⟨q :: qs, by simp [readFields, eq, eqs], by simp [hl], fun i hi hq' j => ?_⟩
    cases i with
    | zero => simpa using hq j
    | succ i =>
      simp only [List.getElem_cons_succ, List.take_succ_cons, List.sum_cons]
      rw [hqs i (by simpa using hi) (by simpa using hq') j]
      congr 2; omega

end Sys2Proof.Machine
end

