-- ==== Sys2Proof/Laws/Ports.lean ====
section
/-! SUPPORT. What the snapshot ports answer. -/

namespace Sys2Proof.Machine

@[simp] theorem le64_length (v : Word) : (le64 v).length = 8 := by simp [le64]

/-- A read of no more bytes than the source delivers takes exactly those bytes. -/
theorem Source.read_of_le {src : Source} {k : Nat} (hk : 0 < k) (h : k ≤ src.deliverable) :
    src.read k = (src.advance k, some (src.ahead.take k)) := by
  unfold Source.deliverable at h
  unfold Source.read stopsAllow Source.ahead
  cases hs : src.stops with
  | nil => simp only [hs] at h ⊢; simp; omega
  | cons r rs => simp only [hs] at h ⊢; rw [if_pos (by simp; omega), if_pos (by omega)]

/-- A read of more bytes than the source delivers comes short; the bytes and the count stay. -/
theorem Source.read_of_gt {src : Source} {k : Nat} (h : src.deliverable < k) :
    (src.read k).2 = none ∧ (src.read k).1.bytes = src.bytes ∧ (src.read k).1.taken = src.taken := by
  unfold Source.deliverable at h
  unfold Source.read stopsAllow
  cases hs : src.stops with
  | nil => simp only [hs] at h ⊢; rw [if_pos trivial, if_neg (by omega)]; simp
  | cons r rs =>
    simp only [hs] at h ⊢
    by_cases hr : k ≤ r
    · rw [if_pos (by simpa using hr), if_neg (by omega)]; simp
    · rw [if_neg (by simpa using hr)]; simp

/-- What a read answers: exactly `k` bytes and the source moved past them, or nothing and the same bytes. -/
theorem Source.read_cases (src : Source) (k : Nat) :
    (∃ bs, src.read k = (src.advance k, some bs) ∧ bs.length = k) ∨
    ((src.read k).2 = none ∧ (src.read k).1.bytes = src.bytes ∧ (src.read k).1.taken = src.taken) := by
  unfold Source.read
  split
  · split
    · exact .inl ⟨_, rfl, by simp; omega⟩
    · exact .inr ⟨rfl, rfl, rfl⟩
  · exact .inr ⟨rfl, rfl, rfl⟩

/-- A completed read answers exactly as many bytes as were asked for. -/
theorem Source.read_length {src src' : Source} {k : Nat} {bs : List Byte} (h : src.read k = (src', some bs)) :
    bs.length = k := by
  rcases Source.read_cases src k with ⟨b, hb, hl⟩ | ⟨hn, -, -⟩
  · rw [hb] at h
    simp only [Prod.mk.injEq, Option.some.injEq] at h
    exact h.2 ▸ hl
  · rw [h] at hn; simp at hn

@[simp] theorem Source.advance_bytes (src : Source) (k : Nat) : (src.advance k).bytes = src.bytes := rfl
@[simp] theorem Source.advance_pos (src : Source) (k : Nat) : (src.advance k).pos = src.pos + k := rfl
@[simp] theorem Source.advance_taken (src : Source) (k : Nat) : (src.advance k).taken = src.taken + k := rfl
@[simp] theorem Source.advance_stops (src : Source) (k : Nat) :
    (src.advance k).stops = stopsAfter src.stops k := rfl

theorem Source.advance_ahead (src : Source) (k : Nat) : (src.advance k).ahead = src.ahead.drop k := by
  simp [Source.ahead, List.drop_drop]

theorem Source.advance_deliverable (src : Source) (k : Nat) :
    (src.advance k).deliverable = src.deliverable - k := by
  unfold Source.deliverable
  cases hs : src.stops with
  | nil => simp [hs, stopsAfter]; omega
  | cons r rs => simp [hs, stopsAfter]; omega

theorem Source.advance_advance (src : Source) (j k : Nat) :
    (src.advance j).advance k = src.advance (j + k) := by
  unfold Source.advance
  cases src.stops <;> simp [stopsAfter] <;> omega

theorem Source.deliverable_le (src : Source) : src.deliverable ≤ src.ahead.length := by
  unfold Source.deliverable Source.ahead
  cases src.stops <;> simp

/-- A write the sink lets pass is accepted whole. -/
theorem Sink.write_of_allow {snk : Sink} {b : List Byte} (h : stopsAllow snk.stops b.length = true) :
    snk.write b = (snk.accept b, true) := by
  unfold Sink.write; rw [if_pos h]

/-- A write longer than the sink lets pass is cut short there. -/
theorem Sink.write_of_stop {snk : Sink} {b : List Byte} {r : Nat} {rs : List Nat} (hs : snk.stops = r :: rs)
    (h : r < b.length) : snk.write b = ({ snk with got := snk.got ++ b.take r, stops := rs }, false) := by
  unfold Sink.write
  rw [if_neg (by simp [hs, stopsAllow, h])]
  simp [hs]

/-- What a write answers: all of `b` accepted, or a prefix of it and failure. -/
theorem Sink.write_cases (snk : Sink) (b : List Byte) :
    snk.write b = (snk.accept b, true) ∨
    ∃ r rs, snk.stops = r :: rs ∧ r < b.length ∧
      snk.write b = ({ snk with got := snk.got ++ b.take r, stops := rs }, false) := by
  by_cases h : stopsAllow snk.stops b.length = true
  · exact .inl (Sink.write_of_allow h)
  · unfold stopsAllow at h
    cases hs : snk.stops with
    | nil => simp [hs] at h
    | cons r rs =>
      simp only [hs] at h
      refine .inr ⟨r, rs, rfl, by simpa using h, Sink.write_of_stop hs (by simpa using h)⟩

/-- A source whose next failure is scheduled at or after `k` bytes, and that holds as many, delivers `k` bytes. -/
theorem Source.le_deliverable {src : Source} {k : Nat} (h : ∀ r rs, src.stops = r :: rs → k ≤ r)
    (hk : k ≤ src.ahead.length) : k ≤ src.deliverable := by
  unfold Source.ahead at hk
  rw [List.length_drop] at hk
  unfold Source.deliverable
  split
  · exact hk
  · exact le_min (h _ _ ‹_›) hk

@[simp] theorem Source.advance_zero (src : Source) : src.advance 0 = src := by
  obtain ⟨b, p, st, tk, rd⟩ := src
  cases st <;> simp [Source.advance, stopsAfter]

@[simp] theorem Sink.accept_nil (snk : Sink) : snk.accept [] = snk := by
  obtain ⟨b, st, rd⟩ := snk
  cases st <;> simp [Sink.accept, stopsAfter]

end Sys2Proof.Machine
end

