-- ==== Sys2Proof/Laws/State.lean ====
section
/-! SUPPORT. One lemma per field per update of the state, each true by rfl. -/

namespace Sys2Proof.Machine

variable (s : State)

@[simp] theorem State.withMem_valid (m : Memory) : (s.withMem m).valid = s.valid := rfl
@[simp] theorem State.withMem_fault (m : Memory) : (s.withMem m).fault = s.fault := rfl
@[simp] theorem State.withMem_mode (m : Memory) : (s.withMem m).mode = s.mode := rfl
@[simp] theorem State.withMem_nf (m : Memory) : (s.withMem m).nf = s.nf := rfl
@[simp] theorem State.withMem_fw (m : Memory) : (s.withMem m).fw = s.fw := rfl
@[simp] theorem State.withMem_rb (m : Memory) : (s.withMem m).rb = s.rb := rfl
@[simp] theorem State.withMem_nw (m : Memory) : (s.withMem m).nw = s.nw := rfl
@[simp] theorem State.withMem_mem (m : Memory) : (s.withMem m).mem = m := rfl
@[simp] theorem State.withMem_cfg (m : Memory) : (s.withMem m).cfg = s.cfg := rfl
@[simp] theorem State.withMem_cmd (m : Memory) : (s.withMem m).cmd = s.cmd := rfl
@[simp] theorem State.withMem_rsp (m : Memory) : (s.withMem m).rsp = s.rsp := rfl
@[simp] theorem State.withMem_rspRoom (m : Memory) : (s.withMem m).rspRoom = s.rspRoom := rfl
@[simp] theorem State.withMem_unsent (m : Memory) : (s.withMem m).unsent = s.unsent := rfl
@[simp] theorem State.withMem_held (m : Memory) : (s.withMem m).held = s.held := rfl
@[simp] theorem State.withMem_src (m : Memory) : (s.withMem m).src = s.src := rfl
@[simp] theorem State.withMem_snk (m : Memory) : (s.withMem m).snk = s.snk := rfl
@[simp] theorem State.withMem_rst (m : Memory) : (s.withMem m).rst = s.rst := rfl
@[simp] theorem State.withMem_draws (m : Memory) : (s.withMem m).draws = s.draws := rfl

@[simp] theorem State.withSrc_valid (x : Source) : (s.withSrc x).valid = s.valid := rfl
@[simp] theorem State.withSrc_fault (x : Source) : (s.withSrc x).fault = s.fault := rfl
@[simp] theorem State.withSrc_mode (x : Source) : (s.withSrc x).mode = s.mode := rfl
@[simp] theorem State.withSrc_nf (x : Source) : (s.withSrc x).nf = s.nf := rfl
@[simp] theorem State.withSrc_fw (x : Source) : (s.withSrc x).fw = s.fw := rfl
@[simp] theorem State.withSrc_rb (x : Source) : (s.withSrc x).rb = s.rb := rfl
@[simp] theorem State.withSrc_nw (x : Source) : (s.withSrc x).nw = s.nw := rfl
@[simp] theorem State.withSrc_mem (x : Source) : (s.withSrc x).mem = s.mem := rfl
@[simp] theorem State.withSrc_cfg (x : Source) : (s.withSrc x).cfg = s.cfg := rfl
@[simp] theorem State.withSrc_cmd (x : Source) : (s.withSrc x).cmd = s.cmd := rfl
@[simp] theorem State.withSrc_rsp (x : Source) : (s.withSrc x).rsp = s.rsp := rfl
@[simp] theorem State.withSrc_rspRoom (x : Source) : (s.withSrc x).rspRoom = s.rspRoom := rfl
@[simp] theorem State.withSrc_unsent (x : Source) : (s.withSrc x).unsent = s.unsent := rfl
@[simp] theorem State.withSrc_held (x : Source) : (s.withSrc x).held = s.held := rfl
@[simp] theorem State.withSrc_src (x : Source) : (s.withSrc x).src = x := rfl
@[simp] theorem State.withSrc_snk (x : Source) : (s.withSrc x).snk = s.snk := rfl
@[simp] theorem State.withSrc_rst (x : Source) : (s.withSrc x).rst = s.rst := rfl
@[simp] theorem State.withSrc_draws (x : Source) : (s.withSrc x).draws = s.draws := rfl

@[simp] theorem State.withSnk_valid (x : Sink) : (s.withSnk x).valid = s.valid := rfl
@[simp] theorem State.withSnk_fault (x : Sink) : (s.withSnk x).fault = s.fault := rfl
@[simp] theorem State.withSnk_mode (x : Sink) : (s.withSnk x).mode = s.mode := rfl
@[simp] theorem State.withSnk_nf (x : Sink) : (s.withSnk x).nf = s.nf := rfl
@[simp] theorem State.withSnk_fw (x : Sink) : (s.withSnk x).fw = s.fw := rfl
@[simp] theorem State.withSnk_rb (x : Sink) : (s.withSnk x).rb = s.rb := rfl
@[simp] theorem State.withSnk_nw (x : Sink) : (s.withSnk x).nw = s.nw := rfl
@[simp] theorem State.withSnk_mem (x : Sink) : (s.withSnk x).mem = s.mem := rfl
@[simp] theorem State.withSnk_cfg (x : Sink) : (s.withSnk x).cfg = s.cfg := rfl
@[simp] theorem State.withSnk_cmd (x : Sink) : (s.withSnk x).cmd = s.cmd := rfl
@[simp] theorem State.withSnk_rsp (x : Sink) : (s.withSnk x).rsp = s.rsp := rfl
@[simp] theorem State.withSnk_rspRoom (x : Sink) : (s.withSnk x).rspRoom = s.rspRoom := rfl
@[simp] theorem State.withSnk_unsent (x : Sink) : (s.withSnk x).unsent = s.unsent := rfl
@[simp] theorem State.withSnk_held (x : Sink) : (s.withSnk x).held = s.held := rfl
@[simp] theorem State.withSnk_src (x : Sink) : (s.withSnk x).src = s.src := rfl
@[simp] theorem State.withSnk_snk (x : Sink) : (s.withSnk x).snk = x := rfl
@[simp] theorem State.withSnk_rst (x : Sink) : (s.withSnk x).rst = s.rst := rfl
@[simp] theorem State.withSnk_draws (x : Sink) : (s.withSnk x).draws = s.draws := rfl

@[simp] theorem State.withCmd_valid (x : List Word) : (s.withCmd x).valid = s.valid := rfl
@[simp] theorem State.withCmd_fault (x : List Word) : (s.withCmd x).fault = s.fault := rfl
@[simp] theorem State.withCmd_mode (x : List Word) : (s.withCmd x).mode = s.mode := rfl
@[simp] theorem State.withCmd_nf (x : List Word) : (s.withCmd x).nf = s.nf := rfl
@[simp] theorem State.withCmd_fw (x : List Word) : (s.withCmd x).fw = s.fw := rfl
@[simp] theorem State.withCmd_rb (x : List Word) : (s.withCmd x).rb = s.rb := rfl
@[simp] theorem State.withCmd_nw (x : List Word) : (s.withCmd x).nw = s.nw := rfl
@[simp] theorem State.withCmd_mem (x : List Word) : (s.withCmd x).mem = s.mem := rfl
@[simp] theorem State.withCmd_cfg (x : List Word) : (s.withCmd x).cfg = s.cfg := rfl
@[simp] theorem State.withCmd_cmd (x : List Word) : (s.withCmd x).cmd = x := rfl
@[simp] theorem State.withCmd_rsp (x : List Word) : (s.withCmd x).rsp = s.rsp := rfl
@[simp] theorem State.withCmd_rspRoom (x : List Word) : (s.withCmd x).rspRoom = s.rspRoom := rfl
@[simp] theorem State.withCmd_unsent (x : List Word) : (s.withCmd x).unsent = s.unsent := rfl
@[simp] theorem State.withCmd_held (x : List Word) : (s.withCmd x).held = s.held := rfl
@[simp] theorem State.withCmd_src (x : List Word) : (s.withCmd x).src = s.src := rfl
@[simp] theorem State.withCmd_snk (x : List Word) : (s.withCmd x).snk = s.snk := rfl
@[simp] theorem State.withCmd_rst (x : List Word) : (s.withCmd x).rst = s.rst := rfl
@[simp] theorem State.withCmd_draws (x : List Word) : (s.withCmd x).draws = s.draws := rfl

@[simp] theorem State.withRspRoom_valid (b : Option Nat) : (s.withRspRoom b).valid = s.valid := rfl
@[simp] theorem State.withRspRoom_fault (b : Option Nat) : (s.withRspRoom b).fault = s.fault := rfl
@[simp] theorem State.withRspRoom_mode (b : Option Nat) : (s.withRspRoom b).mode = s.mode := rfl
@[simp] theorem State.withRspRoom_nf (b : Option Nat) : (s.withRspRoom b).nf = s.nf := rfl
@[simp] theorem State.withRspRoom_fw (b : Option Nat) : (s.withRspRoom b).fw = s.fw := rfl
@[simp] theorem State.withRspRoom_rb (b : Option Nat) : (s.withRspRoom b).rb = s.rb := rfl
@[simp] theorem State.withRspRoom_nw (b : Option Nat) : (s.withRspRoom b).nw = s.nw := rfl
@[simp] theorem State.withRspRoom_mem (b : Option Nat) : (s.withRspRoom b).mem = s.mem := rfl
@[simp] theorem State.withRspRoom_cfg (b : Option Nat) : (s.withRspRoom b).cfg = s.cfg := rfl
@[simp] theorem State.withRspRoom_cmd (b : Option Nat) : (s.withRspRoom b).cmd = s.cmd := rfl
@[simp] theorem State.withRspRoom_rsp (b : Option Nat) : (s.withRspRoom b).rsp = s.rsp := rfl
@[simp] theorem State.withRspRoom_rspRoom (b : Option Nat) : (s.withRspRoom b).rspRoom = b := rfl
@[simp] theorem State.withRspRoom_unsent (b : Option Nat) : (s.withRspRoom b).unsent = s.unsent := rfl
@[simp] theorem State.withRspRoom_held (b : Option Nat) : (s.withRspRoom b).held = s.held := rfl
@[simp] theorem State.withRspRoom_src (b : Option Nat) : (s.withRspRoom b).src = s.src := rfl
@[simp] theorem State.withRspRoom_snk (b : Option Nat) : (s.withRspRoom b).snk = s.snk := rfl
@[simp] theorem State.withRspRoom_rst (b : Option Nat) : (s.withRspRoom b).rst = s.rst := rfl
@[simp] theorem State.withRspRoom_draws (b : Option Nat) : (s.withRspRoom b).draws = s.draws := rfl

@[simp] theorem State.withFault_valid (c : BitVec 8) : (s.withFault c).valid = s.valid := rfl
@[simp] theorem State.withFault_fault (c : BitVec 8) : (s.withFault c).fault = c := rfl
@[simp] theorem State.withFault_mode (c : BitVec 8) : (s.withFault c).mode = s.mode := rfl
@[simp] theorem State.withFault_nf (c : BitVec 8) : (s.withFault c).nf = s.nf := rfl
@[simp] theorem State.withFault_fw (c : BitVec 8) : (s.withFault c).fw = s.fw := rfl
@[simp] theorem State.withFault_rb (c : BitVec 8) : (s.withFault c).rb = s.rb := rfl
@[simp] theorem State.withFault_nw (c : BitVec 8) : (s.withFault c).nw = s.nw := rfl
@[simp] theorem State.withFault_mem (c : BitVec 8) : (s.withFault c).mem = s.mem := rfl
@[simp] theorem State.withFault_cfg (c : BitVec 8) : (s.withFault c).cfg = s.cfg := rfl
@[simp] theorem State.withFault_cmd (c : BitVec 8) : (s.withFault c).cmd = s.cmd := rfl
@[simp] theorem State.withFault_rsp (c : BitVec 8) : (s.withFault c).rsp = s.rsp := rfl
@[simp] theorem State.withFault_rspRoom (c : BitVec 8) : (s.withFault c).rspRoom = s.rspRoom := rfl
@[simp] theorem State.withFault_unsent (c : BitVec 8) : (s.withFault c).unsent = s.unsent := rfl
@[simp] theorem State.withFault_held (c : BitVec 8) : (s.withFault c).held = s.held := rfl
@[simp] theorem State.withFault_src (c : BitVec 8) : (s.withFault c).src = s.src := rfl
@[simp] theorem State.withFault_snk (c : BitVec 8) : (s.withFault c).snk = s.snk := rfl
@[simp] theorem State.withFault_rst (c : BitVec 8) : (s.withFault c).rst = s.rst := rfl
@[simp] theorem State.withFault_draws (c : BitVec 8) : (s.withFault c).draws = s.draws := rfl

@[simp] theorem State.respond_valid (st : Status) (rs : List Word) : (s.respond st rs).valid = s.valid := rfl
@[simp] theorem State.respond_fault (st : Status) (rs : List Word) : (s.respond st rs).fault = s.fault := rfl
@[simp] theorem State.respond_mode (st : Status) (rs : List Word) : (s.respond st rs).mode = s.mode := rfl
@[simp] theorem State.respond_nf (st : Status) (rs : List Word) : (s.respond st rs).nf = s.nf := rfl
@[simp] theorem State.respond_fw (st : Status) (rs : List Word) : (s.respond st rs).fw = s.fw := rfl
@[simp] theorem State.respond_rb (st : Status) (rs : List Word) : (s.respond st rs).rb = s.rb := rfl
@[simp] theorem State.respond_nw (st : Status) (rs : List Word) : (s.respond st rs).nw = s.nw := rfl
@[simp] theorem State.respond_mem (st : Status) (rs : List Word) : (s.respond st rs).mem = s.mem := rfl
@[simp] theorem State.respond_cfg (st : Status) (rs : List Word) : (s.respond st rs).cfg = s.cfg := rfl
@[simp] theorem State.respond_cmd (st : Status) (rs : List Word) : (s.respond st rs).cmd = s.cmd := rfl
@[simp] theorem State.respond_rsp (st : Status) (rs : List Word) : (s.respond st rs).rsp = s.rsp ++ rspHeader st rs.length :: rs := rfl
@[simp] theorem State.respond_rspRoom (st : Status) (rs : List Word) : (s.respond st rs).rspRoom = s.rspRoom := rfl
@[simp] theorem State.respond_unsent (st : Status) (rs : List Word) : (s.respond st rs).unsent = s.unsent := rfl
@[simp] theorem State.respond_held (st : Status) (rs : List Word) : (s.respond st rs).held = s.held := rfl
@[simp] theorem State.respond_src (st : Status) (rs : List Word) : (s.respond st rs).src = s.src := rfl
@[simp] theorem State.respond_snk (st : Status) (rs : List Word) : (s.respond st rs).snk = s.snk := rfl
@[simp] theorem State.respond_rst (st : Status) (rs : List Word) : (s.respond st rs).rst = s.rst := rfl
@[simp] theorem State.respond_draws (st : Status) (rs : List Word) : (s.respond st rs).draws = s.draws := rfl

@[simp] theorem State.install_valid (md : Mode) (ws : List Nat) (n : Nat) (m : Memory) : (s.install md ws n m).valid = true := rfl
@[simp] theorem State.install_fault (md : Mode) (ws : List Nat) (n : Nat) (m : Memory) : (s.install md ws n m).fault = s.fault := rfl
@[simp] theorem State.install_mode (md : Mode) (ws : List Nat) (n : Nat) (m : Memory) : (s.install md ws n m).mode = md := rfl
@[simp] theorem State.install_nf (md : Mode) (ws : List Nat) (n : Nat) (m : Memory) : (s.install md ws n m).nf = BitVec.ofNat 8 ws.length := rfl
@[simp] theorem State.install_fw (md : Mode) (ws : List Nat) (n : Nat) (m : Memory) : (s.install md ws n m).fw = ws.map (BitVec.ofNat 7) ++ s.fw.drop ws.length := rfl
@[simp] theorem State.install_rb (md : Mode) (ws : List Nat) (n : Nat) (m : Memory) : (s.install md ws n m).rb = BitVec.ofNat 14 ws.sum := rfl
@[simp] theorem State.install_nw (md : Mode) (ws : List Nat) (n : Nat) (m : Memory) : (s.install md ws n m).nw = BitVec.ofNat 58 n := rfl
@[simp] theorem State.install_mem (md : Mode) (ws : List Nat) (n : Nat) (m : Memory) : (s.install md ws n m).mem = m := rfl
@[simp] theorem State.install_cfg (md : Mode) (ws : List Nat) (n : Nat) (m : Memory) : (s.install md ws n m).cfg = s.cfg := rfl
@[simp] theorem State.install_cmd (md : Mode) (ws : List Nat) (n : Nat) (m : Memory) : (s.install md ws n m).cmd = s.cmd := rfl
@[simp] theorem State.install_rsp (md : Mode) (ws : List Nat) (n : Nat) (m : Memory) : (s.install md ws n m).rsp = s.rsp := rfl
@[simp] theorem State.install_rspRoom (md : Mode) (ws : List Nat) (n : Nat) (m : Memory) : (s.install md ws n m).rspRoom = s.rspRoom := rfl
@[simp] theorem State.install_unsent (md : Mode) (ws : List Nat) (n : Nat) (m : Memory) : (s.install md ws n m).unsent = s.unsent := rfl
@[simp] theorem State.install_held (md : Mode) (ws : List Nat) (n : Nat) (m : Memory) : (s.install md ws n m).held = s.held := rfl
@[simp] theorem State.install_src (md : Mode) (ws : List Nat) (n : Nat) (m : Memory) : (s.install md ws n m).src = s.src := rfl
@[simp] theorem State.install_snk (md : Mode) (ws : List Nat) (n : Nat) (m : Memory) : (s.install md ws n m).snk = s.snk := rfl
@[simp] theorem State.install_rst (md : Mode) (ws : List Nat) (n : Nat) (m : Memory) : (s.install md ws n m).rst = s.rst := rfl
@[simp] theorem State.install_draws (md : Mode) (ws : List Nat) (n : Nat) (m : Memory) : (s.install md ws n m).draws = s.draws := rfl

@[simp] theorem State.dropContainer_valid : (s.dropContainer).valid = false := rfl
@[simp] theorem State.dropContainer_fault : (s.dropContainer).fault = s.fault := rfl
@[simp] theorem State.dropContainer_mode : (s.dropContainer).mode = (Config.unspecified s.draws).mode := rfl
@[simp] theorem State.dropContainer_nf : (s.dropContainer).nf = (Config.unspecified s.draws).nf := rfl
@[simp] theorem State.dropContainer_fw : (s.dropContainer).fw = (List.range s.cfg.nfMax).map fun i => (Config.unspecified s.draws).fw.getD i 0#7 := rfl
@[simp] theorem State.dropContainer_rb : (s.dropContainer).rb = (Config.unspecified s.draws).rb := rfl
@[simp] theorem State.dropContainer_nw : (s.dropContainer).nw = (Config.unspecified s.draws).nw := rfl
@[simp] theorem State.dropContainer_mem : (s.dropContainer).mem = Memory.ofCells (Config.unspecified s.draws).cells := rfl
@[simp] theorem State.dropContainer_cfg : (s.dropContainer).cfg = s.cfg := rfl
@[simp] theorem State.dropContainer_cmd : (s.dropContainer).cmd = s.cmd := rfl
@[simp] theorem State.dropContainer_rsp : (s.dropContainer).rsp = s.rsp := rfl
@[simp] theorem State.dropContainer_rspRoom : (s.dropContainer).rspRoom = s.rspRoom := rfl
@[simp] theorem State.dropContainer_unsent : (s.dropContainer).unsent = s.unsent := rfl
@[simp] theorem State.dropContainer_held : (s.dropContainer).held = s.held := rfl
@[simp] theorem State.dropContainer_src : (s.dropContainer).src = s.src := rfl
@[simp] theorem State.dropContainer_snk : (s.dropContainer).snk = s.snk := rfl
@[simp] theorem State.dropContainer_rst : (s.dropContainer).rst = s.rst := rfl
@[simp] theorem State.dropContainer_draws : (s.dropContainer).draws = s.draws + 1 := rfl

@[simp] theorem State.afterReset_valid : (s.afterReset).valid = false := rfl
@[simp] theorem State.afterReset_fault : (s.afterReset).fault = 0x00#8 := rfl
@[simp] theorem State.afterReset_mode : (s.afterReset).mode = (Config.unspecified s.draws).mode := rfl
@[simp] theorem State.afterReset_nf : (s.afterReset).nf = (Config.unspecified s.draws).nf := rfl
@[simp] theorem State.afterReset_fw : (s.afterReset).fw = (List.range s.cfg.nfMax).map fun i => (Config.unspecified s.draws).fw.getD i 0#7 := rfl
@[simp] theorem State.afterReset_rb : (s.afterReset).rb = (Config.unspecified s.draws).rb := rfl
@[simp] theorem State.afterReset_nw : (s.afterReset).nw = (Config.unspecified s.draws).nw := rfl
@[simp] theorem State.afterReset_mem : (s.afterReset).mem = Memory.ofCells (Config.unspecified s.draws).cells := rfl
@[simp] theorem State.afterReset_cfg : (s.afterReset).cfg = s.cfg := rfl
@[simp] theorem State.afterReset_cmd : (s.afterReset).cmd = [] := rfl
@[simp] theorem State.afterReset_rsp : (s.afterReset).rsp = [] := rfl
@[simp] theorem State.afterReset_rspRoom : (s.afterReset).rspRoom = s.rspRoom := rfl
@[simp] theorem State.afterReset_unsent : (s.afterReset).unsent = [] := rfl
@[simp] theorem State.afterReset_held : (s.afterReset).held = none := rfl
@[simp] theorem State.afterReset_src : (s.afterReset).src = s.src := rfl
@[simp] theorem State.afterReset_snk : (s.afterReset).snk = s.snk := rfl
@[simp] theorem State.afterReset_rst : (s.afterReset).rst = .released := rfl
@[simp] theorem State.afterReset_draws : (s.afterReset).draws = s.draws + 1 := rfl

@[simp] theorem State.withHeld_valid (h : Option Held) : (s.withHeld h).valid = s.valid := rfl
@[simp] theorem State.withHeld_fault (h : Option Held) : (s.withHeld h).fault = s.fault := rfl
@[simp] theorem State.withHeld_mode (h : Option Held) : (s.withHeld h).mode = s.mode := rfl
@[simp] theorem State.withHeld_nf (h : Option Held) : (s.withHeld h).nf = s.nf := rfl
@[simp] theorem State.withHeld_fw (h : Option Held) : (s.withHeld h).fw = s.fw := rfl
@[simp] theorem State.withHeld_rb (h : Option Held) : (s.withHeld h).rb = s.rb := rfl
@[simp] theorem State.withHeld_nw (h : Option Held) : (s.withHeld h).nw = s.nw := rfl
@[simp] theorem State.withHeld_mem (h : Option Held) : (s.withHeld h).mem = s.mem := rfl
@[simp] theorem State.withHeld_cfg (h : Option Held) : (s.withHeld h).cfg = s.cfg := rfl
@[simp] theorem State.withHeld_cmd (h : Option Held) : (s.withHeld h).cmd = s.cmd := rfl
@[simp] theorem State.withHeld_rsp (h : Option Held) : (s.withHeld h).rsp = s.rsp := rfl
@[simp] theorem State.withHeld_rspRoom (h : Option Held) : (s.withHeld h).rspRoom = s.rspRoom := rfl
@[simp] theorem State.withHeld_unsent (h : Option Held) : (s.withHeld h).unsent = s.unsent := rfl
@[simp] theorem State.withHeld_held (h : Option Held) : (s.withHeld h).held = h := rfl
@[simp] theorem State.withHeld_src (h : Option Held) : (s.withHeld h).src = s.src := rfl
@[simp] theorem State.withHeld_snk (h : Option Held) : (s.withHeld h).snk = s.snk := rfl
@[simp] theorem State.withHeld_rst (h : Option Held) : (s.withHeld h).rst = s.rst := rfl
@[simp] theorem State.withHeld_draws (h : Option Held) : (s.withHeld h).draws = s.draws := rfl

@[simp] theorem State.holdBack_valid (t : State) (k : Nat) : (s.holdBack t k).valid = t.valid := rfl
@[simp] theorem State.holdBack_fault (t : State) (k : Nat) : (s.holdBack t k).fault = t.fault := rfl
@[simp] theorem State.holdBack_mode (t : State) (k : Nat) : (s.holdBack t k).mode = t.mode := rfl
@[simp] theorem State.holdBack_nf (t : State) (k : Nat) : (s.holdBack t k).nf = t.nf := rfl
@[simp] theorem State.holdBack_fw (t : State) (k : Nat) : (s.holdBack t k).fw = t.fw := rfl
@[simp] theorem State.holdBack_rb (t : State) (k : Nat) : (s.holdBack t k).rb = t.rb := rfl
@[simp] theorem State.holdBack_nw (t : State) (k : Nat) : (s.holdBack t k).nw = t.nw := rfl
@[simp] theorem State.holdBack_mem (t : State) (k : Nat) : (s.holdBack t k).mem = t.mem := rfl
@[simp] theorem State.holdBack_cfg (t : State) (k : Nat) : (s.holdBack t k).cfg = t.cfg := rfl
@[simp] theorem State.holdBack_cmd (t : State) (k : Nat) : (s.holdBack t k).cmd = t.cmd := rfl
@[simp] theorem State.holdBack_rsp (t : State) (k : Nat) : (s.holdBack t k).rsp = s.rsp ++ (t.rsp.drop s.rsp.length).take k := rfl
@[simp] theorem State.holdBack_rspRoom (t : State) (k : Nat) : (s.holdBack t k).rspRoom = some (k - (t.rsp.drop s.rsp.length).length) := rfl
@[simp] theorem State.holdBack_unsent (t : State) (k : Nat) : (s.holdBack t k).unsent = (t.rsp.drop s.rsp.length).drop k := rfl
@[simp] theorem State.holdBack_held (t : State) (k : Nat) : (s.holdBack t k).held = t.held := rfl
@[simp] theorem State.holdBack_src (t : State) (k : Nat) : (s.holdBack t k).src = t.src := rfl
@[simp] theorem State.holdBack_snk (t : State) (k : Nat) : (s.holdBack t k).snk = t.snk := rfl
@[simp] theorem State.holdBack_rst (t : State) (k : Nat) : (s.holdBack t k).rst = t.rst := rfl
@[simp] theorem State.holdBack_draws (t : State) (k : Nat) : (s.holdBack t k).draws = t.draws := rfl

@[simp] theorem State.emit_valid (t : State) : (s.emit t).valid = t.valid := by unfold State.emit; split <;> rfl
@[simp] theorem State.emit_fault (t : State) : (s.emit t).fault = t.fault := by unfold State.emit; split <;> rfl
@[simp] theorem State.emit_mode (t : State) : (s.emit t).mode = t.mode := by unfold State.emit; split <;> rfl
@[simp] theorem State.emit_nf (t : State) : (s.emit t).nf = t.nf := by unfold State.emit; split <;> rfl
@[simp] theorem State.emit_fw (t : State) : (s.emit t).fw = t.fw := by unfold State.emit; split <;> rfl
@[simp] theorem State.emit_rb (t : State) : (s.emit t).rb = t.rb := by unfold State.emit; split <;> rfl
@[simp] theorem State.emit_nw (t : State) : (s.emit t).nw = t.nw := by unfold State.emit; split <;> rfl
@[simp] theorem State.emit_mem (t : State) : (s.emit t).mem = t.mem := by unfold State.emit; split <;> rfl
@[simp] theorem State.emit_cfg (t : State) : (s.emit t).cfg = t.cfg := by unfold State.emit; split <;> rfl
@[simp] theorem State.emit_cmd (t : State) : (s.emit t).cmd = t.cmd := by unfold State.emit; split <;> rfl
@[simp] theorem State.emit_held (t : State) : (s.emit t).held = t.held := by unfold State.emit; split <;> rfl
@[simp] theorem State.emit_src (t : State) : (s.emit t).src = t.src := by unfold State.emit; split <;> rfl
@[simp] theorem State.emit_snk (t : State) : (s.emit t).snk = t.snk := by unfold State.emit; split <;> rfl
@[simp] theorem State.emit_rst (t : State) : (s.emit t).rst = t.rst := by unfold State.emit; split <;> rfl
@[simp] theorem State.emit_draws (t : State) : (s.emit t).draws = t.draws := by unfold State.emit; split <;> rfl

@[simp] theorem State.send_valid : (s.send).valid = s.valid := rfl
@[simp] theorem State.send_fault : (s.send).fault = s.fault := rfl
@[simp] theorem State.send_mode : (s.send).mode = s.mode := rfl
@[simp] theorem State.send_nf : (s.send).nf = s.nf := rfl
@[simp] theorem State.send_fw : (s.send).fw = s.fw := rfl
@[simp] theorem State.send_rb : (s.send).rb = s.rb := rfl
@[simp] theorem State.send_nw : (s.send).nw = s.nw := rfl
@[simp] theorem State.send_mem : (s.send).mem = s.mem := rfl
@[simp] theorem State.send_cfg : (s.send).cfg = s.cfg := rfl
@[simp] theorem State.send_cmd : (s.send).cmd = s.cmd := rfl
@[simp] theorem State.send_rsp : (s.send).rsp = s.rsp ++ s.unsent := rfl
@[simp] theorem State.send_rspRoom : (s.send).rspRoom = s.rspRoom := rfl
@[simp] theorem State.send_unsent : (s.send).unsent = [] := rfl
@[simp] theorem State.send_held : (s.send).held = s.held := rfl
@[simp] theorem State.send_src : (s.send).src = s.src := rfl
@[simp] theorem State.send_snk : (s.send).snk = s.snk := rfl
@[simp] theorem State.send_rst : (s.send).rst = s.rst := rfl
@[simp] theorem State.send_draws : (s.send).draws = s.draws := rfl

@[simp] theorem State.hold_ldu : s.hold .ldu = s.dropContainer.withHeld (some .ldu) := rfl
@[simp] theorem State.hold_ldm : s.hold .ldm = s.dropContainer.withHeld (some .ldm) := rfl
@[simp] theorem State.hold_dump : s.hold .dump = s.withHeld (some .dump) := rfl

end Sys2Proof.Machine
end

