-- ==== Sys2Proof/Laws/Ops.lean ====
section
/-! SUPPORT. What the shared operations and the commands can do, said once each. -/

namespace Sys2Proof.Machine

theorem raiseFault_next {code : Status} {s t : State} :
    raiseFault code s = .next t ↔ t = (s.withFault code.code).respond code [] := by
  unfold raiseFault
  constructor
  · intro h; injection h with h; exact h.symm
  · rintro rfl; rfl

@[simp] theorem State.respond_widths (s : State) (st : Status) (rs : List Word) :
    (s.respond st rs).widths = s.widths := rfl

@[simp] theorem State.withMem_widths (s : State) (m : Memory) : (s.withMem m).widths = s.widths := rfl

@[simp] theorem State.withSrc_widths (s : State) (x : Source) : (s.withSrc x).widths = s.widths := rfl

@[simp] theorem State.withSnk_widths (s : State) (x : Sink) : (s.withSnk x).widths = s.widths := rfl

@[simp] theorem State.withCmd_widths (s : State) (x : List Word) : (s.withCmd x).widths = s.widths := rfl

@[simp] theorem State.withHeld_widths (s : State) (x : Option Held) : (s.withHeld x).widths = s.widths := rfl

@[simp] theorem State.holdBack_widths (s t : State) (k : Nat) : (s.holdBack t k).widths = t.widths := rfl

@[simp] theorem State.emit_widths (s t : State) : (s.emit t).widths = t.widths := by simp [State.widths]

/-- What `emit` answers, by what the host takes. -/
theorem State.emit_cases (s t : State) :
    (s.rspRoom = none ∧ s.emit t = t) ∨ ∃ k, s.rspRoom = some k ∧ s.emit t = s.holdBack t k := by
  unfold State.emit
  split
  · exact .inl ⟨‹_›, rfl⟩
  · exact .inr ⟨_, ‹_›, rfl⟩

@[simp] theorem State.send_widths (s : State) : s.send.widths = s.widths := rfl

@[simp] theorem State.withFault_widths (s : State) (c : BitVec 8) : (s.withFault c).widths = s.widths := rfl

/-- A container has at most as many widths as its 8-bit field count says. -/
theorem State.widths_length_le (s : State) : s.widths.length ≤ s.nf.toNat := by
  simp [State.widths]

theorem State.widths_length {s : State} (h : s.nf.toNat ≤ s.fw.length) : s.widths.length = s.nf.toNat := by
  simp [State.widths]; exact h

/-- An installed container has the widths it was installed with, where they fit the registers. -/
theorem State.install_widths (s : State) (md : Mode) (ws : List Nat) (n : Nat) (m : Memory)
    (hl : ws.length ≤ 255) (hw : ∀ w ∈ ws, w ≤ 64) : (s.install md ws n m).widths = ws := by
  have h1 : ws.length % 256 = ws.length := Nat.mod_eq_of_lt (by omega)
  have h2 : (ws.map (BitVec.ofNat 7)).length = ws.length := by simp
  unfold State.widths
  rw [State.install_nf, State.install_fw, BitVec.toNat_ofNat, h1, ← h2, List.take_left, List.map_map]
  conv_rhs => rw [← List.map_id ws]
  refine List.map_congr_left fun w hwm => ?_
  have := hw w hwm
  simp; omega

/-- A construction ends with RESOURCE_ERROR, or fits and installs a blank container. -/
theorem construct_cases (mode : Mode) (cap : Word) (hints : List Word) (s : State) :
    construct mode cap hints s = s.failConstructor .resourceError ∨
    (hints.length ≤ s.cfg.nfMax ∧ storageWords cap.toNat (hints.map bitWidth).sum ≤ s.cfg.nwMax ∧
      construct mode cap hints s =
        (s.install mode (hints.map bitWidth) (storageWords cap.toNat (hints.map bitWidth).sum) []).respond
          .ok []) := by
  unfold construct
  dsimp only
  split
  · exact .inl rfl
  · split
    · exact .inl rfl
    · exact .inr ⟨by omega, by omega, rfl⟩

/-- The words a load reads make canonical storage below the word count. -/
theorem readWords_spec (n k : Nat) (src src' : Source) (m m' : Memory) (hm : m.wf) (hc : ∀ c ∈ m, c.1 < k + n)
    (h : readWords k n src m = (src', some m')) : m'.wf ∧ ∀ c ∈ m', c.1 < k + n := by
  induction n generalizing k src m with
  | zero => simp only [readWords, Prod.mk.injEq, Option.some.injEq] at h; exact h.2 ▸ ⟨hm, hc⟩
  | succ n ih =>
    simp only [readWords] at h
    split at h
    · simp at h
    · have := ih (k + 1) _ _ (Memory.wf_write _ _ hm) (fun c hcm => ?_) h
      · rwa [show k + 1 + n = k + (n + 1) by omega] at this
      · rcases Memory.mem_write hcm with hcm | rfl
        · have := hc c hcm; omega
        · show k < k + 1 + n; omega

/-- The body of a load ends with one of the three errors and no container, or installs what was read. -/
theorem loadBody_cases (mode : Mode) (h : LoadHeader) (src : Source) (s : State) :
    (∃ src' st, (st = .ioError ∨ st = .formatError ∨ st = .resourceError) ∧
      loadBody mode h src s = s.failLoad src' st) ∨
    (∃ src' m, (∀ w ∈ h.widths, w ≤ 64) ∧ h.words ≤ s.cfg.nwMax ∧ readWords 0 h.words src [] = (src', some m) ∧
      loadBody mode h src s = ((s.withSrc src').install mode h.widths h.words m).respond .ok []) := by
  unfold loadBody
  split
  · exact .inl ⟨_, _, .inr (.inl rfl), rfl⟩
  · rename_i hw
    split
    · exact .inl ⟨_, _, .inr (.inr rfl), rfl⟩
    · split
      · exact .inl ⟨_, _, .inl rfl, rfl⟩
      · rename_i src' m hr
        refine .inr ⟨src', m, fun w hwm => ?_, by omega, hr, rfl⟩
        by_contra hc
        exact hw (List.any_eq_true.2 ⟨w, hwm, by simpa using hc⟩)

/-- The uniform header holds one width. -/
theorem readUniformHeader_widths {src src' : Source} {h : LoadHeader}
    (e : readUniformHeader src = (src', .ok h)) : h.widths.length = 1 := by
  unfold readUniformHeader at e
  rcases Source.read_cases src 1 with ⟨b, hb, hl⟩ | ⟨hn, -, -⟩
  · rw [hb] at e
    dsimp only at e
    split at e
    · simp at e
    · simp only [Prod.mk.injEq, Except.ok.injEq] at e
      rw [← e.2]; simpa using hl
  · split at e
    · simp at e
    · rename_i heq; rw [heq] at hn; simp at hn

/-- The multi-field header holds at most `NF_MAX` widths. -/
theorem readMultiHeader_widths {nfMax : Nat} {src src' : Source} {h : LoadHeader}
    (e : readMultiHeader nfMax src = (src', .ok h)) : h.widths.length ≤ nfMax := by
  unfold readMultiHeader at e
  split at e
  · simp at e
  · split at e
    · simp at e
    · split at e
      · simp at e
      · unfold readWidthBytes at e
        split at e
        · simp at e
        · rename_i src3 bs heq
          simp only [Prod.mk.injEq, Except.ok.injEq] at e
          rw [← e.2]
          split at heq
          · simp only [Prod.mk.injEq, Option.some.injEq] at heq; simp [← heq.2]
          · have hl := Source.read_length heq
            simp [hl]; omega

/-- What a read of the uniform header can fail with. -/
theorem readUniformHeader_error {src src' : Source} {st : Status}
    (e : readUniformHeader src = (src', .error st)) : st = .ioError := by
  unfold readUniformHeader at e
  split at e
  · simp_all
  · split at e <;> simp_all

/-- What a read of the multi-field header can fail with. -/
theorem readMultiHeader_error {nfMax : Nat} {src src' : Source} {st : Status}
    (e : readMultiHeader nfMax src = (src', .error st)) : st = .ioError ∨ st = .resourceError := by
  unfold readMultiHeader at e
  split at e
  · simp_all
  · split at e
    · simp_all
    · split at e
      · simp_all
      · split at e <;> simp_all

/-- A load ends with one of the three errors and no container, or installs what the source declared. -/
theorem load_cases (mode : Mode) (hd : Source × Except Status LoadHeader) (s : State)
    (hst : ∀ st, hd.2 = .error st → st = .ioError ∨ st = .formatError ∨ st = .resourceError) :
    (∃ src' st, (st = .ioError ∨ st = .formatError ∨ st = .resourceError) ∧
      load mode hd s = s.failLoad src' st) ∨
    (∃ h src' m, hd.2 = .ok h ∧ (∀ w ∈ h.widths, w ≤ 64) ∧ h.words ≤ s.cfg.nwMax ∧
      readWords 0 h.words hd.1 [] = (src', some m) ∧
      load mode hd s = ((s.withSrc src').install mode h.widths h.words m).respond .ok []) := by
  obtain ⟨src, r⟩ := hd
  cases r with
  | error st => exact .inl ⟨src, st, hst st rfl, rfl⟩
  | ok h =>
    rcases loadBody_cases mode h src s with h1 | ⟨src', m, h1, h2, h3, h4⟩
    · exact .inl h1
    · exact .inr ⟨h, src', m, rfl, h1, h2, h3, h4⟩

/-- What CAP can do. -/
theorem execCap_next {s t : State} (h : execCap s = .next t) :
    (s.valid = false ∧ t = (s.withFault 0x81#8).respond .noContainer []) ∨
    (s.valid = true ∧ t = s.respond .ok [BitVec.ofNat 64 (capacity s.nw.toNat s.rb.toNat)]) := by
  unfold execCap at h
  split at h
  · exact .inl ⟨‹_›, raiseFault_next.1 h⟩
  · rename_i hv
    injection h with h; exact .inr ⟨by simpa using hv, h.symm⟩

/-- What SET can do. -/
theorem execSet_next {idx : Word} {vs : List Word} {s t : State} (h : execSet idx vs s = .next t) :
    (∃ st, (st = .noContainer ∨ st = .argCount ∨ st = .indexRange) ∧
      t = (s.withFault st.code).respond st []) ∨
    (s.valid = true ∧ vs.length = s.nf.toNat ∧ s.InRange idx.toNat ∧ s.WidthsLegal ∧
      ∃ m, s.writeRecord idx.toNat vs = some m ∧ t = (s.withMem m).respond .ok []) := by
  unfold execSet at h
  split at h
  · exact .inl ⟨_, .inl rfl, raiseFault_next.1 h⟩
  · split at h
    · exact .inl ⟨_, .inr (.inl rfl), raiseFault_next.1 h⟩
    · split at h
      · exact .inl ⟨_, .inr (.inr rfl), raiseFault_next.1 h⟩
      · split at h
        · simp at h
        · split at h
          · simp at h
          · rename_i h1 h2 h3 h4 _ m hm
            injection h with h
            exact .inr ⟨by simpa using h1, not_not.1 h2, not_not.1 h3, not_not.1 h4, m, hm, h.symm⟩

/-- What GET can do. -/
theorem execGet_next {idx : Word} {s t : State} (h : execGet idx s = .next t) :
    (∃ st, (st = .noContainer ∨ st = .indexRange) ∧ t = (s.withFault st.code).respond st []) ∨
    (s.valid = true ∧ s.InRange idx.toNat ∧ s.WidthsLegal ∧
      ∃ qs, s.readRecord idx.toNat = some qs ∧ t = s.respond .ok qs) := by
  unfold execGet at h
  split at h
  · exact .inl ⟨_, .inl rfl, raiseFault_next.1 h⟩
  · split at h
    · exact .inl ⟨_, .inr rfl, raiseFault_next.1 h⟩
    · split at h
      · simp at h
      · split at h
        · simp at h
        · rename_i h1 h2 h3 _ qs hq
          injection h with h
          exact .inr ⟨by simpa using h1, not_not.1 h2, not_not.1 h3, qs, hq, h.symm⟩

/-- What DUMP can do. -/
theorem execDump_next {s t : State} (h : execDump s = .next t) :
    (s.valid = false ∧ t = (s.withFault 0x81#8).respond .noContainer []) ∨
    (s.valid = true ∧ s.snk.ready = false ∧ t = s.hold .dump) ∨
    (s.valid = true ∧ s.snk.ready = true ∧
      ∃ snk st, ((st = .ok ∧ s.dumpTo = (snk, true)) ∨ (st = .ioError ∧ s.dumpTo = (snk, false))) ∧
        t = (s.withSnk snk).respond st []) := by
  unfold execDump at h
  split at h
  · exact .inl ⟨‹_›, raiseFault_next.1 h⟩
  · rename_i hv
    have hv : s.valid = true := by simpa using hv
    split at h
    · injection h with h; exact .inr (.inl ⟨hv, ‹_›, h.symm⟩)
    · rename_i hr
      have hr : s.snk.ready = true := by simpa using hr
      split at h
      all_goals
        rename_i e
        injection h with h
        exact .inr (.inr ⟨hv, hr, _, _, by simp [e], h.symm⟩)

/-- What LDU can do. -/
theorem execLdu_next {s t : State} (h : execLdu s = .next t) :
    (s.src.ready = false ∧ t = s.hold .ldu) ∨
    (s.src.ready = true ∧ t = load .uniform (readUniformHeader s.src) s) := by
  unfold execLdu at h
  split at h
  · injection h with h; exact .inl ⟨‹_›, h.symm⟩
  · rename_i hr
    injection h with h
    exact .inr ⟨by simpa using hr, h.symm⟩

/-- What LDM can do. -/
theorem execLdm_next {s t : State} (h : execLdm s = .next t) :
    (s.src.ready = false ∧ t = s.hold .ldm) ∨
    (s.src.ready = true ∧ t = load .multi (readMultiHeader s.cfg.nfMax s.src) s) := by
  unfold execLdm at h
  split at h
  · injection h with h; exact .inl ⟨‹_›, h.symm⟩
  · rename_i hr
    injection h with h
    exact .inr ⟨by simpa using hr, h.symm⟩

/-- As many results as widths. -/
theorem readFields_length {nw : Nat} {m : Memory} {ws : List Nat} {p r : Nat} {qs : List Word}
    (h : readFields nw m ws p r = some qs) : qs.length = ws.length := by
  induction ws generalizing p r qs with
  | nil => simp only [readFields, Option.some.injEq] at h; simp [← h]
  | cons w ws ih =>
    simp only [readFields] at h
    split at h
    · simp at h
    · split at h
      · simp at h
      · simp only [Option.some.injEq] at h
        rw [← h]; simpa using ih ‹_›

/-- Storage of a legal container after the fields of a record in range have been written. -/
theorem State.writeRecord_spec {s : State} {idx : Nat} {vs : List Word} (hm : s.mem.wf)
    (hlen : vs.length = s.widths.length) (hw : s.WidthsLegal) (hrb : s.rb.toNat = s.widths.sum)
    (hin : s.InRange idx) :
    ∃ m, s.writeRecord idx vs = some m ∧ m.wf ∧
      (∀ (i : Nat) (hi : i < s.widths.length) (hv : i < vs.length) (j : Nat), j < s.widths[i] →
        m.bitAt (off s.widths s.rb.toNat idx i + j) = vs[i].getLsbD j) ∧
      (∀ b, b < idx * s.rb.toNat ∨ (idx + 1) * s.rb.toNat ≤ b → m.bitAt b = s.mem.bitAt b) ∧
      ((∀ c ∈ s.mem, c.1 < s.nw.toNat) → ∀ c ∈ m, c.1 < s.nw.toNat) := by
  have hfst : (s.widths.zip vs).map Prod.fst = s.widths := List.map_fst_zip (by omega)
  have hpos : 64 * wordOf (idx * s.rb.toNat) + bitOf (idx * s.rb.toNat) = idx * s.rb.toNat := by
    unfold wordOf bitOf; omega
  have hin' : (idx + 1) * s.rb.toNat ≤ 64 * s.nw.toNat := hin
  rw [Nat.succ_mul] at hin'
  obtain ⟨m, e, wf, hset, hout, hc⟩ := writeFields_spec (nw := s.nw.toNat) (s.widths.zip vs)
    (p := wordOf (idx * s.rb.toNat)) (r := bitOf (idx * s.rb.toNat)) hm (by unfold bitOf; omega)
    (fun f hf => hw f.1 (List.of_mem_zip hf).1) (by rw [hfst]; omega)
  refine ⟨m, e, wf, fun i hi hv j hj => ?_, fun b hb => hout b ?_, hc⟩
  · have := hset i (by simp; omega) j (by simpa using hj)
    rw [hfst, hpos] at this
    simpa [off] using this
  · rw [hfst, hpos, ← hrb]; rw [Nat.succ_mul] at hb; exact hb

/-- The fields of a record in range of a legal container. -/
theorem State.readRecord_spec {s : State} {idx : Nat} (hw : s.WidthsLegal) (hrb : s.rb.toNat = s.widths.sum)
    (hin : s.InRange idx) :
    ∃ qs, s.readRecord idx = some qs ∧ qs.length = s.widths.length ∧
      ∀ (i : Nat) (hi : i < s.widths.length) (hq : i < qs.length) (j : Nat),
        qs[i].getLsbD j = (decide (j < s.widths[i]) && s.mem.bitAt (off s.widths s.rb.toNat idx i + j)) := by
  have hpos : 64 * wordOf (idx * s.rb.toNat) + bitOf (idx * s.rb.toNat) = idx * s.rb.toNat := by
    unfold wordOf bitOf; omega
  have hin' : (idx + 1) * s.rb.toNat ≤ 64 * s.nw.toNat := hin
  rw [Nat.succ_mul] at hin'
  obtain ⟨qs, e, hl, hq⟩ := readFields_spec (nw := s.nw.toNat) s.mem s.widths
    (p := wordOf (idx * s.rb.toNat)) (r := bitOf (idx * s.rb.toNat)) (by unfold bitOf; omega) hw (by omega)
  refine ⟨qs, e, hl, fun i hi hqi j => ?_⟩
  rw [hq i hi hqi j, hpos]; rfl

/-- A load that runs leaves what the core holds of a stuck command alone. -/
theorem load_held (mode : Mode) (hd : Source × Except Status LoadHeader) (s : State) :
    (load mode hd s).unsent = s.unsent ∧ (load mode hd s).held = s.held ∧ (load mode hd s).snk = s.snk := by
  obtain ⟨src, r⟩ := hd
  cases r with
  | error st => exact ⟨rfl, rfl, rfl⟩
  | ok h => rcases loadBody_cases mode h src s with ⟨_, _, -, e⟩ | ⟨_, _, -, -, -, e⟩ <;>
      (rw [load, e]; exact ⟨rfl, rfl, rfl⟩)

end Sys2Proof.Machine
end

