-- ==== Sys2Proof/Laws/PerInstr.lean ====
section
/-! SUPPORT. The statements made command by command: a well-formed command's frame has the length that
30_encoding.md R48 gives it. -/

namespace Sys2Proof.Laws.FrameLength

/-- The frame of a well-formed command is `1 + s + n` beats long, at most 257 (30_encoding.md R48). -/
def Statement (i : Instr) : Prop :=
  i.wellFormed = true →
    (encode i).length = i.opcode.frameBeats i.vector.length ∧ (encode i).length ≤ 257

/-- The length of a frame, from the number of its operand beats. -/
theorem of_operands (i : Instr) (hs : (i.scalar ++ i.vector).length ≤ 1 + i.vector.length)
    (hf : 1 ≤ i.opcode.frameBeats i.vector.length) : Statement i := by
  intro h
  have hv := Instr.vector_length_lt h
  have ho := i.operands_length
  have he : (encode i).length = (i.scalar ++ i.vector).length + 1 := rfl
  omega

theorem bitw (maxValue : Word) : Statement (.bitw maxValue) :=
  of_operands _ (by simp [Instr.scalar, Instr.vector]) (Nat.le_add_right_of_le (Nat.le_add_right _ _))

theorem cfgu (capacityHint hint : Word) : Statement (.cfgu capacityHint hint) :=
  of_operands _ (by simp [Instr.scalar, Instr.vector]) (Nat.le_add_right_of_le (Nat.le_add_right _ _))

theorem cfgm (capacityHint : Word) (hints : List Word) : Statement (.cfgm capacityHint hints) :=
  of_operands _ (by simp [Instr.scalar, Instr.vector]) (Nat.le_add_right_of_le (Nat.le_add_right _ _))

theorem cap : Statement .cap := of_operands _ (by decide) (by decide)

theorem set (index : Word) (values : List Word) : Statement (.set index values) :=
  of_operands _ (by simp [Instr.scalar, Instr.vector]) (Nat.le_add_right_of_le (Nat.le_add_right _ _))

theorem get (index : Word) : Statement (.get index) :=
  of_operands _ (by simp [Instr.scalar, Instr.vector]) (Nat.le_add_right_of_le (Nat.le_add_right _ _))

theorem dump : Statement .dump := of_operands _ (by decide) (by decide)

theorem ldu : Statement .ldu := of_operands _ (by decide) (by decide)

theorem ldm : Statement .ldm := of_operands _ (by decide) (by decide)

end Sys2Proof.Laws.FrameLength
end

