-- ==== Sys2Proof/Laws/Snapshot.lean ====
section
/-! SUPPORT. What the snapshot unit's shared operations do, and that dropping or installing a container keeps the
invariant. -/

namespace Sys2Proof.Machine

theorem wordBytes_length (m : Memory) (k n : Nat) : (wordBytes m k n).length = 8 * n := by
  induction n generalizing k with
  | zero => rfl
  | succ n ih => rw [wordBytes, List.length_append, ih, le64_length]; omega

/-- The snapshot's words as one list of words, each little-endian. -/
theorem wordBytes_eq (m : Memory) (k n : Nat) :
    wordBytes m k n = ((List.range n).map fun i => m.read (k + i)).flatMap le64 := by
  induction n generalizing k with
  | zero => rfl
  | succ n ih =>
    rw [wordBytes, ih, List.range_succ_eq_map]
    simp [List.flatMap_cons, Function.comp_def]
    congr 2; funext a; congr 1; omega

theorem Sink.accept_accept (snk : Sink) (a b : List Byte) : (snk.accept a).accept b = snk.accept (a ++ b) := by
  unfold Sink.accept
  cases snk.stops <;> simp [stopsAfter, Nat.sub_sub]

theorem Sink.write_nil (snk : Sink) : snk.write [] = (snk, true) := by
  obtain ⟨g, st⟩ := snk
  cases st <;> simp [Sink.write, stopsAllow, Sink.accept, stopsAfter]

/-- Two writes, the second only after a first that is accepted whole, are one write of both. -/
theorem Sink.write_append (snk : Sink) (a b : List Byte) (hb : 0 < b.length) :
    (match snk.write a with
      | (k, false) => (k, false)
      | (k, true) => k.write b) = snk.write (a ++ b) := by
  rcases Sink.write_cases snk a with e | ⟨r, rs, hs, hr, e⟩
  · rw [e]; dsimp only
    have ha : stopsAllow snk.stops a.length = true := by
      by_contra hc
      unfold Sink.write at e; rw [if_neg hc] at e; simp at e
    cases hs : snk.stops with
    | nil =>
      rw [Sink.write_of_allow (by simp [Sink.accept, hs, stopsAfter, stopsAllow]),
        Sink.write_of_allow (by simp [hs, stopsAllow]), Sink.accept_accept]
    | cons r rs =>
      rw [hs] at ha; simp [stopsAllow] at ha
      by_cases hh : a.length + b.length ≤ r
      · rw [Sink.write_of_allow (by simp [Sink.accept, hs, stopsAfter, stopsAllow]; omega),
          Sink.write_of_allow (by simp [hs, stopsAllow]; omega), Sink.accept_accept]
      · rw [Sink.write_of_stop (r := r - a.length) (rs := rs) (by simp [Sink.accept, hs, stopsAfter]) (by omega),
          Sink.write_of_stop hs (by simp; omega)]
        simp [Sink.accept, List.take_append, List.take_of_length_le ha]
  · rw [e, Sink.write_of_stop hs (by simp; omega)]
    simp [List.take_append, Nat.sub_eq_zero_of_le (le_of_lt hr)]

/-- The loop of DUMP is one write of the words' bytes. -/
theorem dumpWords_eq (m : Memory) (n k : Nat) (snk : Sink) :
    dumpWords m k n snk = snk.write (wordBytes m k n) := by
  induction n generalizing k snk with
  | zero => rw [dumpWords, wordBytes, Sink.write_nil]
  | succ n ih =>
    rw [dumpWords, wordBytes]
    cases n with
    | zero =>
      simp only [dumpWords, wordBytes, List.append_nil]
      rcases h : snk.write (le64 (m.read k)) with ⟨a, b⟩; cases b <;> rfl
    | succ n =>
      rw [← Sink.write_append _ _ _ (by rw [wordBytes_length]; omega)]
      rcases h : snk.write (le64 (m.read k)) with ⟨a, b⟩; cases b <;> simp [ih]

/-- The writes of DUMP are one write of the snapshot. -/
theorem State.dumpTo_eq (s : State) : s.dumpTo = s.snk.write s.snapshot := by
  unfold State.dumpTo State.snapshot
  by_cases h : s.nw.toNat = 0
  · rw [h]; simp only [dumpWords, wordBytes, List.append_nil]
    rcases h : s.snk.write s.snapshotHeader with ⟨a, b⟩; cases b <;> rfl
  · rw [← Sink.write_append _ _ _ (by rw [wordBytes_length]; omega)]
    rcases h : s.snk.write s.snapshotHeader with ⟨a, b⟩; cases b <;> simp [dumpWords_eq]

/-- A load comes short of words where the source delivers fewer bytes than they take. -/
theorem readWords_short (n : Nat) : ∀ (k : Nat) (src : Source) (m : Memory), src.deliverable < 8 * n →
    (readWords k n src m).2 = none := by
  induction n with
  | zero => intro k src m h; omega
  | succ n ih =>
    intro k src m h
    simp only [readWords]
    by_cases h8 : 8 ≤ src.deliverable
    · rw [Source.read_of_le (by omega) h8]; exact ih _ _ _ (by rw [Source.advance_deliverable]; omega)
    · obtain ⟨h1, -⟩ := Source.read_of_gt (src := src) (k := 8) (by omega)
      rcases hr : src.read 8 with ⟨a, b⟩; rw [hr] at h1; dsimp only at h1; subst h1; rfl

theorem State.inv_dropContainer {s : State} (h : s.Inv) : s.dropContainer.Inv := by
  obtain ⟨h1, h2, h3, h4, h5⟩ := h
  exact ⟨h1, h2, by simp, Memory.wf_ofCells _, by simp⟩

theorem State.inv_install {s : State} {md : Mode} {ws : List Nat} {n : Nat} {m : Memory} (h : s.Inv)
    (hl : ws.length ≤ s.cfg.nfMax) (hu : md = .uniform → ws.length = 1) (hw : ∀ w ∈ ws, w ≤ 64)
    (hn : n ≤ s.cfg.nwMax) (hm : m.wf) (hc : ∀ c ∈ m, c.1 < n) : (s.install md ws n m).Inv := by
  obtain ⟨⟨a1, a2, a3, a4⟩, h2, h3, h4, h5⟩ := h
  have hwid := State.install_widths s md ws n m (by omega) hw
  have hs := sum_le_of_le hw
  have hnf : (s.install md ws n m).nf.toNat = ws.length := by
    rw [State.install_nf, BitVec.toNat_ofNat]; omega
  have hnw : (s.install md ws n m).nw.toNat = n := by
    rw [State.install_nw, BitVec.toNat_ofNat]; omega
  refine ⟨⟨a1, a2, a3, a4⟩, h2, ?_, hm, fun _ => ⟨?_, ?_, ?_, ?_, ?_, ?_⟩⟩
  · simp; omega
  · rw [hnf]; exact hl
  · intro e; rw [hnf]; exact hu e
  · unfold State.WidthsLegal; rw [hwid]; exact hw
  · rw [hwid, State.install_rb, BitVec.toNat_ofNat]; omega
  · rw [hnw]; exact hn
  · rw [hnw]; exact hc

end Sys2Proof.Machine
end

