-- ==== Sys2Proof/Laws/Step.lean ====
section
/-! SUPPORT. What one step can do. -/

namespace Sys2Proof.Machine

/-- A reset leaves the core as reset does, whatever it does to the source and the sink. -/
theorem State.resetDuring_cases (s : State) (moved : Nat) :
    ∃ src snk, s.resetDuring moved = ((s.withSrc src).withSnk snk).afterReset := by
  unfold State.resetDuring
  split
  · split <;> exact ⟨_, _, rfl⟩
  · exact ⟨s.src, s.snk, rfl⟩
  · exact ⟨s.src, s.snk, rfl⟩

/-- What `deliver` answers: the turn's own next state, its response sent as far as the host takes it. -/
theorem State.deliver_next {s t : State} {o : Host.Outcome State Fault Refusal} (h : s.deliver o = .next t) :
    ∃ u, o = .next u ∧ t = s.emit u := by
  unfold State.deliver at h
  split at h
  · injection h with h; exact ⟨_, rfl, h.symm⟩
  · cases h
  · cases h

/-- A stuck command that goes on is the command run. -/
theorem runHeld_next {k : Held} {s t : State} (h : runHeld k s = .next t) :
    s.answers k = true ∧ exec k.instr (s.withHeld none) = .next t := by
  unfold runHeld at h
  split at h
  · exact ⟨‹_›, h⟩
  · cases h

/-- Taking a command that answers a next state: a command of a whole frame, or an illegal header. -/
theorem runFrame_next {s t : State} (h : runFrame s = .next t) :
    (∃ i rest, decode s.cmd = .frame i rest ∧ exec i (s.withCmd rest) = .next t) ∨
    ∃ why rest, decode s.cmd = .illegal why rest ∧
      t = ((s.withCmd rest).withFault 0x80#8).respond .illegalCommand [] := by
  unfold runFrame State.fetch at h
  split at h
  · exact .inl ⟨_, _, ‹_›, h⟩
  · exact .inr ⟨_, _, ‹_›, raiseFault_next.1 h⟩
  · cases h

/-- A turn without reset that answers a next state: a response sent that was still to be sent, a stuck command that
goes on, a command of a whole frame, or an illegal header. -/
theorem runCommand_next {s t : State} (h : runCommand s = .next t) :
    (s.unsent ≠ [] ∧ s.rspRoom ≠ some 0 ∧ t = s.emit s.send) ∨
    (s.unsent = [] ∧ s.fault = 0x00#8 ∧ ∃ u, t = s.emit u ∧
      ((∃ k, s.held = some k ∧ s.answers k = true ∧ exec k.instr (s.withHeld none) = .next u) ∨
        (s.held = none ∧
          ((∃ i rest, decode s.cmd = .frame i rest ∧ exec i (s.withCmd rest) = .next u) ∨
            ∃ why rest, decode s.cmd = .illegal why rest ∧
              u = ((s.withCmd rest).withFault 0x80#8).respond .illegalCommand [])))) := by
  unfold runCommand at h
  split at h
  · split at h
    · cases h
    · injection h with h; exact .inl ⟨‹_›, ‹_›, h.symm⟩
  · rename_i hu
    split at h
    · cases h
    · rename_i hf
      refine .inr ⟨not_not.1 hu, not_not.1 hf, ?_⟩
      split at h
      · obtain ⟨u, e, rfl⟩ := State.deliver_next h
        exact ⟨u, rfl, .inl ⟨_, ‹_›, runHeld_next e⟩⟩
      · obtain ⟨u, e, rfl⟩ := State.deliver_next h
        exact ⟨u, rfl, .inr ⟨‹_›, runFrame_next e⟩⟩

/-- A step that answers a next state is a reset or a turn without reset. -/
theorem step_next {s t : State} (h : step s = .next t) :
    (∃ moved, s.rst = .asserted moved ∧ t = s.resetDuring moved) ∨
    (s.rst = .released ∧ runCommand s = .next t) := by
  unfold step at h
  split at h
  · injection h with h; exact .inl ⟨_, ‹_›, h.symm⟩
  · exact .inr ⟨‹_›, h⟩

/-- A core between commands takes its next command. -/
theorem runCommand_of_idle {s : State} (h : s.Idle) : runCommand s = s.deliver (runFrame s) := by
  obtain ⟨hf, -, hu, hh⟩ := h
  simp [runCommand, hf, hu, hh]

/-- A stuck command is what the core goes on with. -/
theorem runCommand_of_held {s : State} {k : Held} (hf : s.fault = 0x00#8) (hu : s.unsent = [])
    (hh : s.held = some k) : runCommand s = s.deliver (runHeld k s) := by
  simp [runCommand, hf, hu, hh]

/-- What a command does to the response that is still to be sent and to the stuck command: nothing where the snapshot
ports it uses answer; otherwise it is held at its first access and has answered nothing. -/
theorem exec_held {i : Instr} {s t : State} (h : exec i s = .next t) :
    t.unsent = s.unsent ∧
    ((s.PortsAnswer i ∧ t.held = s.held) ∨
      ¬ s.PortsAnswer i ∧ ∃ k : Held, k.instr = i ∧ t = s.hold k ∧ (i = .dump → s.valid = true)) := by
  have no : ∀ {j : Instr}, j ≠ .ldu → j ≠ .ldm → j ≠ .dump → s.PortsAnswer j := fun h1 h2 h3 =>
    ⟨fun h => absurd h (not_or.2 ⟨h1, h2⟩), fun h => absurd h h3⟩
  have same : ∀ {t : State} {j : Instr}, s.PortsAnswer j → t.unsent = s.unsent → t.held = s.held →
      t.unsent = s.unsent ∧ ((s.PortsAnswer j ∧ t.held = s.held) ∨
        ¬ s.PortsAnswer j ∧ ∃ k : Held, k.instr = j ∧ t = s.hold k ∧ (j = .dump → s.valid = true)) :=
    fun h1 h2 h3 => ⟨h2, .inl ⟨h1, h3⟩⟩
  cases i with
  | bitw a => injection h with h; subst h; exact same (no (by simp) (by simp) (by simp)) rfl rfl
  | cfgu a b =>
    injection h with h; subst h
    rcases construct_cases .uniform a [b] s with e | ⟨_, _, e⟩ <;> rw [e] <;>
      exact same (no (by simp) (by simp) (by simp)) rfl rfl
  | cfgm a b =>
    injection h with h; subst h
    rcases construct_cases .multi a b s with e | ⟨_, _, e⟩ <;> rw [e] <;>
      exact same (no (by simp) (by simp) (by simp)) rfl rfl
  | cap => rcases execCap_next h with ⟨-, rfl⟩ | ⟨-, rfl⟩ <;> exact same (no (by simp) (by simp) (by simp)) rfl rfl
  | set a b =>
    rcases execSet_next h with ⟨_, -, rfl⟩ | ⟨-, -, -, -, _, -, rfl⟩ <;>
      exact same (no (by simp) (by simp) (by simp)) rfl rfl
  | get a =>
    rcases execGet_next h with ⟨_, -, rfl⟩ | ⟨-, -, -, _, -, rfl⟩ <;>
      exact same (no (by simp) (by simp) (by simp)) rfl rfl
  | dump =>
    rcases execDump_next h with ⟨hv, rfl⟩ | ⟨hv, hr, rfl⟩ | ⟨hv, hr, _, _, -, rfl⟩
    · exact same (by simp [State.PortsAnswer, hv]) rfl rfl
    · exact ⟨rfl, .inr ⟨by simp [State.PortsAnswer, hv, hr], .dump, rfl, rfl, fun _ => hv⟩⟩
    · exact same (by simp [State.PortsAnswer, hv, hr]) rfl rfl
  | ldu =>
    rcases execLdu_next h with ⟨hr, rfl⟩ | ⟨hr, rfl⟩
    · exact ⟨rfl, .inr ⟨by simp [State.PortsAnswer, hr], .ldu, rfl, rfl, by simp⟩⟩
    · obtain ⟨h1, h2, -⟩ := load_held .uniform (readUniformHeader s.src) s
      exact same (by simp [State.PortsAnswer, hr]) h1 h2
  | ldm =>
    rcases execLdm_next h with ⟨hr, rfl⟩ | ⟨hr, rfl⟩
    · exact ⟨rfl, .inr ⟨by simp [State.PortsAnswer, hr], .ldm, rfl, rfl, by simp⟩⟩
    · obtain ⟨h1, h2, -⟩ := load_held .multi (readMultiHeader s.cfg.nfMax s.src) s
      exact same (by simp [State.PortsAnswer, hr]) h1 h2

/-- Where a reset leaves the source and the sink: as far as the turn it cuts off had moved them, where they were when
there is no such turn. -/
theorem State.resetDuring_ports (s : State) (moved : Nat) :
    (∀ t, runCommand s = .next t →
      (moved ≤ bytesTaken s t + (bytesGiven s t).length →
        (s.resetDuring moved).src = s.src.advance (min moved (bytesTaken s t)) ∧
          (s.resetDuring moved).snk = s.snk.accept ((bytesGiven s t).take moved)) ∧
      (bytesTaken s t + (bytesGiven s t).length < moved →
        (s.resetDuring moved).src = t.src ∧ (s.resetDuring moved).snk = t.snk)) ∧
    ((∀ t, runCommand s ≠ .next t) → (s.resetDuring moved).src = s.src ∧ (s.resetDuring moved).snk = s.snk) := by
  unfold State.resetDuring
  refine ⟨fun t e => ?_, fun h => ?_⟩
  · rw [e]; dsimp only
    refine ⟨fun h => ?_, fun h => ?_⟩
    · rw [if_pos h]; exact ⟨rfl, rfl⟩
    · rw [if_neg (by omega)]; exact ⟨rfl, rfl⟩
  · split
    · exact absurd ‹_› (h _)
    · exact ⟨rfl, rfl⟩
    · exact ⟨rfl, rfl⟩

end Sys2Proof.Machine
end

