-- ==== Sys2Proof/Tests/Slice0.lean ====
section
/-! SUPPORT. Tests: the ill-formed commands that WellFormed refuses; the words of every command written out from
30_encoding.md R47 to R51 and decoded; single commands with the expected values of 95_test_vectors.md; and, for each
statement with hypotheses, a concrete case that meets them (`witness_<statement>`). -/

namespace Sys2Proof.Tests

open Sys2Proof Sys2Proof.Machine

/-! ## WellFormed -/

/-- A 256th vector operand does not fit the 8-bit count (30_encoding.md R47). -/
theorem test_wellFormed_refuses_long_set : (Instr.set 0 (List.replicate 256 0)).wellFormed = false := by decide +kernel

theorem test_wellFormed_refuses_long_cfgm : (Instr.cfgm 0 (List.replicate 256 0)).wellFormed = false := by decide +kernel

/-! ## Decoding: words of 95_test_vectors.md 2.1, written out from 30_encoding.md R47 and R49 -/

theorem test_decode_bitw :
    decode [0x0100000000000000#64, 0x0000000000000401#64] = .frame (.bitw 1025#64) [] := by decide

theorem test_decode_cfgu :
    decode [0x0201000000000000#64, 0x0000000000000080#64, 0x000000000000007F#64] =
      .frame (.cfgu 128#64 127#64) [] := by decide

theorem test_decode_cfgm :
    decode [0x0303000000000000#64, 0x0000000000000004#64, 0x0000000000000005#64, 0x0000000000000401#64,
      0x800000000001B207#64] = .frame (.cfgm 4#64 [5#64, 1025#64, 0x800000000001B207#64]) [] := by decide

theorem test_decode_cap : decode [0x0400000000000000#64, 0x7#64] = .frame .cap [0x7#64] := by decide

theorem test_decode_set :
    decode [0x0503000000000000#64, 0x3#64, 0x1#64, 0x2#64, 0x3#64] =
      .frame (.set 3#64 [1#64, 2#64, 3#64]) [] := by decide

theorem test_decode_get : decode [0x0600000000000000#64, 0x24#64] = .frame (.get 36#64) [] := by decide

theorem test_decode_dump : decode [0x0700000000000000#64] = .frame .dump [] := by decide

theorem test_decode_ldu : decode [0x0800000000000000#64] = .frame .ldu [] := by decide

theorem test_decode_ldm : decode [0x0900000000000000#64] = .frame .ldm [] := by decide

/-- The illegal headers of 95_test_vectors.md 2.1, with the case of 30_encoding.md R51 each falls under. -/
theorem test_decode_illegal :
    [0x0000000000000000#64, 0x0A00000000000000#64, 0xFF00000000000000#64, 0x0101000000000000#64,
      0x0200000000000000#64, 0x0202000000000000#64, 0x0401000000000000#64, 0x0601000000000000#64,
      0x0600000000000001#64, 0x0500800000000000#64, 0x0701000000000000#64, 0x0801000000000000#64,
      0x0901000000000000#64].map (fun h => decode [h, 0x1#64]) =
    [Reject.reservedOpcode, .reservedOpcode, .reservedOpcode, .illegalCount, .illegalCount, .illegalCount,
      .illegalCount, .illegalCount, .reservedBits, .reservedBits, .illegalCount, .illegalCount,
      .illegalCount].map (fun why => Decoded.illegal why [0x1#64]) := by decide

/-- A table word whose operand beats are zeros, and the longest frame (30_encoding.md R48). -/
theorem test_decode_table :
    decodeTableWord 64 0x0302000000000000 = some (.cfgm 0#64 [0#64, 0#64]) ∧
    decodeTableWord 128 0x00000000000000090600000000000000 = some (.get 9#64) ∧
    decodeTableWord 64 0x0A00000000000000 = none := by decide +kernel

/-- The textual forms of 30_encoding.md R56. -/
theorem test_text :
    (Instr.set 36 [0x55]).text = "SET 36, 85" ∧ Instr.cap.text = "CAP" ∧
    responseText .ok [7, 0x7FF] = "-> OK: 7, 2047" ∧ responseText .indexRange [] = "-> INDEX_RANGE" := by decide

/-! ## Single commands, from 95_test_vectors.md -/

/-- What a command leaves, seen through `f`; `none` where it answers no next state. -/
def see {α : Type} (o : Host.Outcome State Fault Refusal) (f : State → α) : Option α :=
  match o with
  | .next s => some (f s)
  | .fault _ => none
  | .refused _ => none

/-- A container with given mode, widths, words and storage, on a core just reset. -/
def holding (mode : Mode) (widths : List Nat) (nw : Nat) (mem : Memory) : State :=
  State.reset.install mode widths nw mem

/-- A core just reset with a source that holds `bytes`. -/
def fed (bytes : List Byte) : State := State.reset.withSrc { bytes := bytes, pos := 0, stops := [], taken := 0, ready := true }

/-- `s` with a source that fails by the given schedule. -/
def failing (stops : List Nat) (s : State) : State := s.withSrc { s.src with stops := stops }

/-- 95_test_vectors.md 2.2. -/
theorem test_bitw :
    [0#64, 1#64, 3#64, 255#64, 256#64, 1025#64, 0x7FFFFFFFFFFFFFFF#64, 0x800000000001B207#64].map bitWidth =
      [0, 1, 2, 8, 9, 11, 63, 64] := by decide

/-- 95_test_vectors.md 2.2, the combinator table. -/
theorem test_combinators :
    mask 64 = 0xFFFFFFFFFFFFFFFF#64 ∧ shl 0x7F#64 60 = 0xF000000000000000#64 ∧
    extract 0x2008#64 3 11 = 0x401#64 ∧ deposit 0xFFFFFFFFFFFFFFFF#64 3 11 0x401#64 = 0xFFFFFFFFFFFFE00F#64 ∧
    deposit 0#64 3 11 0xFFFF#64 = 0x3FF8#64 ∧ join 0x1B207#64 0x2000#64 50 = 0x800000000001B207#64 := by decide

/-- 95_test_vectors.md 2.4: `CFGU 10, 100`. -/
theorem test_cfgu :
    see (exec (.cfgu 10 100) State.reset) (fun s => (s.valid, s.widths, s.rb, s.nw, s.rsp)) =
      some (true, [7], 7#14, 2#58, [0#64]) := by decide

/-- 95_test_vectors.md 2.4: `CFGU 37450, 127` asks for 4097 words. -/
theorem test_cfgu_resource :
    see (exec (.cfgu 37450 127) State.reset) (fun s => (s.valid, s.fault, s.rsp)) =
      some (false, 0#8, [0x0300000000000000#64]) := by decide

/-- 95_test_vectors.md 2.4: `CFGM 4, 5, 1025, 0x8000_0000_0001_B207`. -/
theorem test_cfgm :
    see (exec (.cfgm 4 [5, 1025, 0x800000000001B207]) State.reset) (fun s => (s.mode, s.widths, s.rb, s.nw)) =
      some (.multi, [3, 11, 64], 78#14, 5#58) := by decide

/-- 95_test_vectors.md 2.4: nine hints, and none. -/
theorem test_cfgm_limits :
    see (exec (.cfgm 1 (List.replicate 9 1)) State.reset) (fun s => s.rsp) = some [0x0300000000000000#64] ∧
    see (exec (.cfgm 0 []) State.reset) (fun s => (s.nf, s.rb, s.nw)) = some (0#8, 0#14, 1#58) := by decide

/-- 95_test_vectors.md 2.4: capacities 18 and the sentinel. -/
theorem test_cap :
    see (exec .cap (holding .uniform [7] 2 [])) State.rsp = some [0x0001000000000000#64, 18#64] ∧
    see (exec .cap (holding .multi [] 0 [])) State.rsp =
      some [0x0001000000000000#64, 0xFFFFFFFFFFFFFFFF#64] := by decide

/-- 95_test_vectors.md P1, step 6: the crossing write between two neighbours. -/
theorem test_set_crossing :
    see (exec (.set 36 [0x55]) (holding .uniform [7] 14 [(3, 0xFFE0000000000000), (4, 0x3FF)])) State.mem =
      some [(3, 0x5FE0000000000000), (4, 0x3FD)] := by decide

/-- 95_test_vectors.md P2, step 10: a record whose 64-bit field crosses. -/
theorem test_set_multi :
    see (exec (.set 2 [2, 0x555, 0x0123456789ABCDEF])
      (holding .multi [3, 11, 64] 5 [(2, 0xFFFFFFF), (3, 0x0300440000000000)])) State.mem =
      some [(2, 0xAF37BEAAAFFFFFFF), (3, 0x030044048D159E26)] := by decide

/-- 95_test_vectors.md P2, step 6. -/
theorem test_get :
    see (exec (.get 0) (holding .multi [3, 11, 64] 5 [(0, 0x6C81E00D), (1, 0x2000)])) State.rsp =
      some [0x0003000000000000#64, 5#64, 0x401#64, 0x800000000001B207#64] := by decide

/-- 95_test_vectors.md 2.7: `GET 18`, and an index whose successor does not wrap. -/
theorem test_get_range :
    see (exec (.get 18) (holding .uniform [7] 2 [])) (fun s => (s.fault, s.rsp)) =
      some (0x83#8, [0x8300000000000000#64]) ∧
    see (exec (.get 0xFFFFFFFFFFFFFFFF) (holding .uniform [7] 2 [])) State.fault = some 0x83#8 := by decide

/-- 95_test_vectors.md 2.6, the second DUMP row. -/
theorem test_dump :
    see (exec .dump (holding .multi [3, 11] 1 [(0, 0x0FFEA00D)])) (fun s => s.snk.got) =
      some [2, 0, 0, 0, 0, 0, 0, 0, 1, 0, 0, 0, 0, 0, 0, 0, 0x03, 0x0B, 0x0D, 0xA0, 0xFE, 0x0F, 0, 0, 0, 0] := by
  decide

/-- 95_test_vectors.md 2.6: a sink that fails at the eleventh byte holds ten, and the container stays. -/
theorem test_dump_failing :
    see (exec .dump ((holding .uniform [7] 2 [(0, 0x8000000000000000), (1, 0x2A)]).withSnk
      { got := [], stops := [10], ready := true })) (fun s => (s.snk.got, s.rsp, s.valid)) =
      some ([7, 2, 0, 0, 0, 0, 0, 0, 0, 0], [0x0100000000000000#64], true) := by decide

/-- 95_test_vectors.md 2.6, L12. -/
theorem test_ldu :
    see (exec .ldu (fed [0x40, 1, 0, 0, 0, 0, 0, 0, 0, 0x88, 0x77, 0x66, 0x55, 0x44, 0x33, 0x22, 0x11]))
      (fun s => (s.widths, s.nw, s.mem, s.src.taken)) =
      some ([64], 1#58, [(0, 0x1122334455667788)], 17) := by decide

/-- 95_test_vectors.md 2.6, L2, L4 and L5: the order of the tests, and the bytes consumed. -/
theorem test_ldu_failing :
    see (exec .ldu (fed [0x41, 0x01, 0x10, 0, 0, 0, 0, 0, 0])) (fun s => (s.rsp, s.src.taken)) =
      some ([0x0200000000000000#64], 9) ∧
    see (exec .ldu (fed [0x41])) (fun s => (s.rsp, s.src.taken)) = some ([0x0100000000000000#64], 1) ∧
    see (exec .ldu (fed [])) (fun s => (s.rsp, s.src.taken)) = some ([0x0100000000000000#64], 0) := by decide

/-- 95_test_vectors.md 2.6, the second DUMP row loaded back. -/
theorem test_ldm :
    see (exec .ldm (fed [2, 0, 0, 0, 0, 0, 0, 0, 1, 0, 0, 0, 0, 0, 0, 0, 0x03, 0x0B, 0x0D, 0xA0, 0xFE, 0x0F, 0, 0,
      0, 0])) (fun s => (s.widths, s.rb, s.mem, s.src.taken)) =
      some ([3, 11], 14#14, [(0, 0x0FFEA00D)], 26) := by decide

/-- 95_test_vectors.md 2.6, L6, L7 and L8. -/
theorem test_ldm_failing :
    see (exec .ldm (fed ([2, 0, 0, 0, 0, 0, 0, 0, 1, 0, 0, 0, 0, 0, 0, 0, 3, 0x41] ++ List.replicate 8 0)))
      (fun s => (s.rsp, s.src.taken)) = some ([0x0200000000000000#64], 18) ∧
    see (exec .ldm (fed [3, 0, 0, 0, 0, 0, 0, 0, 1, 0, 0, 0, 0, 0, 0, 0, 3, 0x41]))
      (fun s => (s.rsp, s.src.taken)) = some ([0x0100000000000000#64], 16) ∧
    see (exec .ldm (fed [9, 0, 0, 0, 0, 0, 0, 0, 1, 0, 0, 0, 0, 0, 0, 0, 3]))
      (fun s => (s.rsp, s.src.taken)) = some ([0x0300000000000000#64], 16) := by decide

/-- 95_test_vectors.md 2.7: a frame on the port runs; `SET 0, 1` without a container takes all three beats; a
halted core takes none. -/
theorem test_step :
    see (step (State.reset.withFetchWord 128 0x00000000000000FF0100000000000000)) (fun s => (s.rsp, s.cmd)) =
      some ([0x0001000000000000#64, 8#64], []) ∧
    see (step (State.reset.withCmd [0x0501000000000000#64, 0#64, 1#64])) (fun s => (s.rsp, s.cmd, s.fault)) =
      some ([0x8100000000000000#64], [], 0x81#8) ∧
    see (step ((State.reset.withFault 0x83#8).withCmd [0x0600000000000000#64, 0#64])) State.cmd = none := by
  decide +kernel

/-- 95_test_vectors.md 2.7: reset clears `FAULT`, drops the container and empties the ports. -/
theorem test_reset :
    see (step { ((holding .uniform [7] 2 []).withFault 0x83#8).withCmd [0#64] with rst := .asserted 0 })
      (fun s => (s.valid, s.fault, s.cmd, s.rst)) = some (false, 0#8, [], .released) := by decide

/-- 44_snapshot.md R121 with 93_implementation_defined.md S6: an LDU at a silent source has set `VALID` to 0 and
answered nothing; it goes on when the source answers. -/
theorem test_stuck :
    see (step (({ holding .uniform [7] 2 [] with src := { State.reset.src with ready := false } }).withCmd
        [0x0800000000000000#64])) (fun s => (s.stValid, s.held, s.cmd, s.rsp)) = some (false, some .ldu, [], []) ∧
    see (step { fed [0x40, 0, 0, 0, 0, 0, 0, 0, 0] with held := some .ldu }) (fun s => (s.stValid, s.held, s.rsp)) =
      some (true, none, [0#64]) := by decide

/-- 60_exceptions.md R141 with 30_encoding.md R46: a fault shows in `FAULT` before a host that takes no beat has its
response; a BITW whose host takes one of its two beats has one still to send. -/
theorem test_stuck_response :
    see (step ((State.reset.withRspRoom (some 0)).withCmd [0x0400000000000000#64]))
        (fun s => (s.stFault, s.rsp, s.unsent)) = some (0x81#8, [], [0x8100000000000000#64]) ∧
    see (step ((State.reset.withRspRoom (some 1)).withCmd [0x0100000000000000#64, 3#64]))
        (fun s => (s.rsp, s.unsent, s.rspRoom)) = some ([0x0001000000000000#64], [2#64], some 0) ∧
    see (step { State.reset with rspRoom := some 1, unsent := [2#64] }) (fun s => (s.rsp, s.unsent)) =
      some ([2#64], []) := by decide

/-- 93_implementation_defined.md S6: no step while the source is silent. -/
theorem test_stuck_stays :
    step { State.reset with held := some .ldu, src := { State.reset.src with ready := false } } =
      .fault .waitingForSource := rfl

/-! ## Witnesses: concrete cases that meet the hypotheses of the statements -/

/-- A uniform container of 7-bit records with two words. -/
def small : State := holding .uniform [7] 2 [(0, 0x2A)]

/-- The container of 95_test_vectors.md P2. -/
def triple : State := holding .multi [3, 11, 64] 5 []

/-- `small`, which has just answered a SET of record 9. -/
def smallSet : State := { small with mem := [(0, 0x800000000000002A), (1, 0x2A)], rsp := [0#64] }

theorem witness_DecodeEncodeRoundTrip :
    (Instr.set 0 (List.replicate 255 0)).wellFormed = true ∧ (Instr.cfgm 0 []).wellFormed = true := by decide +kernel

theorem witness_DecodedFrameIsItsEncoding :
    decode [0x0501000000000000#64, 36#64, 0x55#64, 7#64] = .frame (.set 36 [0x55]) [7#64] := by decide

theorem witness_IllegalHeaderRaisesIllegalCommand :
    (State.reset.withCmd [0x0A00000000000000#64]).Running ∧
    (State.reset.withCmd [0x0A00000000000000#64]).cmd = 0x0A00000000000000#64 :: [] ∧
    decode [0x0A00000000000000#64] = .illegal .reservedOpcode [] ∧
    decode [0x0600800000000000#64] = .illegal .reservedBits [] ∧
    decode [0x06FF000000000000#64] = .illegal .illegalCount [] ∧
    decode [0x0202000000000000#64] = .illegal .illegalCount [] := by decide

theorem witness_StepRunsDecodedCommand :
    (State.reset.withCmd [0x0600000000000000#64, 2#64]).Running ∧
    decode (State.reset.withCmd [0x0600000000000000#64, 2#64]).cmd = .frame (.get 2) [] := by decide

/-- A host that takes no beat and one that takes one; a command that answers a next state, two that stop in states that
no run reaches, and an illegal header. -/
theorem witness_SilentHostHoldsTheResponse :
    ((State.reset.withRspRoom (some 0)).Idle ∧ (State.reset.withRspRoom (some 0)).rspRoom = some 0 ∧
      (State.reset.withRspRoom (some 1)).rspRoom = some 1) ∧
    (decode [0x0100000000000000#64, 3#64] = .frame (.bitw 3) [] ∧
      ∃ t, exec (.bitw 3) (State.reset.withRspRoom (some 1)) = .next t ∧
        t.rsp = (State.reset.withRspRoom (some 1)).rsp ++ [0x0001000000000000#64, 2#64]) ∧
    exec (.get 0) { State.reset with valid := true, nf := 1#8, fw := [64#7] } = .fault .storageAddress ∧
    exec (.get 0) { State.reset with valid := true, nf := 1#8, fw := [65#7] } = .refused .widthOutOfDomain ∧
    decode [0x0A00000000000000#64] = .illegal .reservedOpcode [] :=
  ⟨by decide, ⟨by decide, _, rfl, by decide⟩, rfl, rfl, by decide⟩

/-- With no beat of a frame on the port, and with all but the last. -/
theorem witness_IncompleteFrameWaits :
    State.reset.Idle ∧ (State.reset.withCmd [0x0501000000000000#64, 36#64]).Idle ∧
    (Instr.set 36 [0x55]).wellFormed = true ∧
    0 < (encode (.set 36 [0x55])).length ∧ State.reset.cmd = (encode (.set 36 [0x55])).take 0 ∧
    2 < (encode (.set 36 [0x55])).length ∧
    (State.reset.withCmd [0x0501000000000000#64, 36#64]).cmd = (encode (.set 36 [0x55])).take 2 := by decide

/-- `s` with a source, or a sink, that does not answer. -/
def silentSource (s : State) : State := s.withSrc { s.src with ready := false }

def silentSink (s : State) : State := s.withSnk { s.snk with ready := false }

/-- A response that is still to be sent; an LDU and an LDM at a silent source, a DUMP at a silent sink. -/
theorem witness_SilentPortStopsTheCore :
    ({ small with rspRoom := some 0, unsent := [0#64] }.rst = .released ∧
      { small with rspRoom := some 0, unsent := [0#64] }.unsent ≠ [] ∧
      { small with rspRoom := some 0, unsent := [0#64] }.rspRoom = some 0) ∧
    ((silentSource State.reset).fault = 0x00#8 ∧ (silentSource State.reset).rst = .released ∧
      (silentSource State.reset).unsent = [] ∧ (silentSource State.reset).src.ready = false ∧
      ((silentSource State.reset).withHeld (some .ldu)).held = some .ldu ∧
      ((silentSource State.reset).withHeld (some .ldm)).held = some .ldm) ∧
    ((silentSink small).withHeld (some .dump)).held = some .dump ∧ (silentSink small).snk.ready = false := by decide

theorem witness_SilentPortHoldsTheCommand :
    (silentSource small).src.ready = false ∧ (silentSink small).valid = true ∧
    (silentSink small).snk.ready = false := by decide

/-- A response, at a host that takes every beat and at one that takes one; each stuck command with its port answering,
at a host that takes every beat and at one that takes none. -/
theorem witness_StuckCoreGoesOn :
    ({ small with unsent := [0#64] }.rst = .released ∧ { small with unsent := [0#64] }.unsent ≠ [] ∧
      { small with unsent := [0#64] }.rspRoom = none ∧
      { small with unsent := [0#64, 1#64], rspRoom := some 1 }.unsent ≠ [] ∧
      { small with unsent := [0#64, 1#64], rspRoom := some 1 }.rspRoom = some 1) ∧
    (small.fault = 0x00#8 ∧ small.rst = .released ∧ small.unsent = [] ∧
      (small.withHeld (some .ldu)).held = some .ldu ∧ (small.withHeld (some .ldm)).held = some .ldm ∧
      (small.withHeld (some .dump)).held = some .dump ∧ small.src.ready = true ∧ small.snk.ready = true ∧
      small.rspRoom = none) ∧
    ((small.withHeld (some .dump)).withRspRoom (some 0)).rspRoom = some 0 ∧
    ∃ t, exec .dump { (small.withHeld (some .dump)).withRspRoom (some 0) with held := none } = .next t ∧
      t.rsp = ((small.withHeld (some .dump)).withRspRoom (some 0)).rsp ++ [0#64] :=
  ⟨by decide, by decide, by decide, _, rfl, by decide⟩

/-- A DUMP stuck at a sink that answers again, and an LDU taken at a silent source. -/
theorem witness_StepKeepsTheHeldInvariant :
    ((small.withHeld (some .dump)).HeldInv ∧ ∃ t, step (small.withHeld (some .dump)) = .next t) ∧
    ((silentSource small).withCmd [0x0800000000000000#64]).HeldInv ∧
    ∃ t, step ((silentSource small).withCmd [0x0800000000000000#64]) = .next t :=
  ⟨⟨by decide, _, rfl⟩, by decide, _, rfl⟩

/-- A reset, and the response of a fault sent to a host that takes beats again. -/
theorem witness_OnlyResetLeavesTheHaltedState :
    (State.reset.withFault 0x80#8).fault ≠ 0x00#8 ∧
    (∃ t, step { State.reset.withFault 0x80#8 with rst := .asserted 0 } = .next t) ∧
    ∃ t, step { State.reset.withFault 0x80#8 with unsent := [0x8000000000000000#64] } = .next t :=
  ⟨by decide, ⟨_, rfl⟩, _, rfl⟩

/-- A DUMP that has moved 3 bytes when reset arrives. -/
theorem witness_ResetStepLeavesNoContainer :
    { small.withCmd [0x0700000000000000#64] with rst := .asserted 3 }.rst = .asserted 3 ∧
    see (step { small.withCmd [0x0700000000000000#64] with rst := .asserted 3 }) (fun t => t.snk.got) =
      some [7, 2, 0] := by decide

/-- A DUMP cut off after 3 bytes, at a sink that never fails and at one that fails after 2; an LDU cut off after 3
bytes, and after more bytes than the source has; an LDM that waits at a silent source; a core with no command. -/
theorem witness_ResetKeepsWhatWasMoved :
    ((small.withCmd [0x0700000000000000#64]).CutsOff .dump ∧ small.valid = true ∧ small.snk.ready = true ∧
      (∀ r rs, small.snk.stops = r :: rs → small.snapshot.length ≤ r)) ∧
    ((small.withSnk { small.snk with stops := [2] }).snk.stops = 2 :: [] ∧ 2 < small.snapshot.length) ∧
    (((fed [0x40, 0, 0, 0, 0, 0, 0, 0, 0]).withHeld (some .ldu)).CutsOff .ldu ∧
      ∃ u, exec .ldu ((fed [0x40, 0, 0, 0, 0, 0, 0, 0, 0]).withHeld (some .ldu)) = .next u ∧
        3 ≤ u.src.taken - 0 ∧ u.src.taken - 0 < 10) ∧
    (((silentSource State.reset).withHeld (some .ldm)).CutsOff .ldm ∧
      ((silentSource State.reset).withHeld (some .ldm)).src.ready = false) ∧
    (¬ State.reset.CutsOff .dump ∧ ¬ State.reset.CutsOff .ldu ∧ ¬ State.reset.CutsOff .ldm) := by
  refine ⟨⟨⟨rfl, rfl, .inl ⟨rfl, [], rfl⟩⟩, rfl, rfl, fun r rs h => by cases h⟩, by decide,
    ⟨⟨rfl, rfl, .inr ⟨.ldu, rfl, rfl⟩⟩, _, rfl, by decide, by decide⟩, ⟨⟨rfl, rfl, .inr ⟨.ldm, rfl, rfl⟩⟩, rfl⟩, ?_⟩
  refine ⟨?_, ?_, ?_⟩ <;> rintro ⟨-, -, ⟨-, rest, h⟩ | ⟨k, h, -⟩⟩ <;> cases h

theorem witness_StepKeepsTheInvariant :
    (small.withCmd [0x0400000000000000#64]).Inv ∧ ∃ t, step (small.withCmd [0x0400000000000000#64]) = .next t :=
  ⟨by decide, _, rfl⟩

theorem witness_ResetMeetsTheInvariant :
    Params.Legal { nfMax := 1, nwMax := 1 } ∧ Params.Legal { nfMax := 255, nwMax := 2 ^ 58 - 1 } := by decide

theorem witness_HostActionsKeepTheInvariant : (State.reset.Inv ∧ small.Inv ∧ triple.Inv) ∧
    State.reset.HeldInv ∧ (small.withHeld (some .dump)).HeldInv :=
  ⟨⟨by decide, by decide, by decide⟩, by decide, by decide⟩

/-- A GET at a host that takes beats, and a DUMP at a silent sink. -/
theorem witness_WholeFrameAlwaysCompletes :
    ((small.withCmd [0x0600000000000000#64, 2#64]).Inv ∧ (small.withCmd [0x0600000000000000#64, 2#64]).Running ∧
      (small.withCmd [0x0600000000000000#64, 2#64]).PortsAnswer (.get 2) ∧
      decode (small.withCmd [0x0600000000000000#64, 2#64]).cmd = .frame (.get 2) []) ∧
    ((silentSink small).withCmd [0x0700000000000000#64]).Inv ∧
    ((silentSink small).withCmd [0x0700000000000000#64]).Idle ∧
    decode ((silentSink small).withCmd [0x0700000000000000#64]).cmd = .frame .dump [] :=
  ⟨by decide, by decide, by decide, by decide⟩

/-- A command that answers, and one that is stuck. -/
theorem witness_OneResponseFramePerCommand :
    (small.PortsAnswer .cap ∧ ∃ t, exec .cap small = .next t) ∧
    ¬ (silentSink small).PortsAnswer .dump ∧ ∃ t, exec .dump (silentSink small) = .next t :=
  ⟨⟨by decide, _, rfl⟩, by decide, _, rfl⟩

/-- A success, an error and a fault. -/
theorem witness_CommandEndsInOneOfThreeWays :
    (small.PortsAnswer .dump ∧ ∃ t, exec .dump small = .next t) ∧
    (small.PortsAnswer .ldu ∧ ∃ t, exec .ldu small = .next t) ∧
    small.PortsAnswer (.get 18) ∧ ∃ t, exec (.get 18) small = .next t :=
  ⟨⟨by decide, _, rfl⟩, ⟨by decide, _, rfl⟩, by decide, _, rfl⟩

/-- A constructor, one that waits at a silent source, another command, and a core with no container. -/
theorem witness_ValidSaysWhetherAContainerExists :
    (isConstructor (.cfgu 10 100) = true ∧ State.reset.PortsAnswer (.cfgu 10 100) ∧
      ∃ t, exec (.cfgu 10 100) State.reset = .next t) ∧
    (isConstructor .ldu = true ∧ ¬ (silentSource small).PortsAnswer .ldu ∧
      ∃ t, exec .ldu (silentSource small) = .next t) ∧
    (isConstructor (.bitw 7) = false ∧ ∃ t, exec (.bitw 7) State.reset = .next t) ∧ State.reset.valid = false :=
  ⟨⟨rfl, by decide, _, rfl⟩, ⟨rfl, by decide, _, rfl⟩, ⟨rfl, _, rfl⟩, rfl⟩

theorem witness_NoContainerFault :
    State.reset.valid = false ∧ (∃ t, exec (.bitw 7) State.reset = .next t) ∧
    isConstructor .ldm = true ∧ ∃ t, exec .ldm State.reset = .next t := ⟨rfl, ⟨_, rfl⟩, rfl, _, rfl⟩

theorem witness_OnlyConstructorsWriteTheRegisters :
    (isConstructor .dump = false ∧ ∃ t, exec .dump small = .next t) ∧
    (isConstructor (.set 9 [0x55]) = false ∧ exec (.set 9 [0x55]) small = .next smallSet) ∧
    (isConstructor (.bitw 7) = false ∧ ∃ t, exec (.bitw 7) small = .next t) ∧
    (isConstructor (.get 18) = false ∧ ∃ t, exec (.get 18) small = .next t) ∧
    isConstructor .cap = false ∧ ∃ t, exec .cap small = .next t :=
  ⟨⟨rfl, _, rfl⟩, ⟨rfl, rfl⟩, ⟨rfl, _, rfl⟩, ⟨rfl, _, rfl⟩, rfl, _, rfl⟩

theorem witness_MaskAndShiftValues : (64 : Nat) ≤ 64 ∧ (63 : Nat) ≤ 63 := by decide

theorem witness_ExtractIsTheBitField :
    ((0 : Nat) ≤ 63 ∧ (64 : Nat) ≤ 64 ∧ 0 + 64 ≤ 64) ∧ (63 : Nat) ≤ 63 ∧ (1 : Nat) ≤ 64 ∧ 63 + 1 ≤ 64 := by decide

/-- Two disjoint fields, the bits 0 to 2 and 3 to 63. -/
theorem witness_DepositExtractLaws :
    ((0 : Nat) ≤ 63 ∧ (3 : Nat) ≤ 64 ∧ 0 + 3 ≤ 64) ∧ ((3 : Nat) ≤ 63 ∧ (61 : Nat) ≤ 64 ∧ 3 + 61 ≤ 64) ∧
    ∀ b : Nat, ¬(0 ≤ b ∧ b < 0 + 3 ∧ 3 ≤ b ∧ b < 3 + 61) :=
  ⟨by decide, by decide, fun b => by omega⟩

theorem witness_JoinRebuildsTheSplitValue : (1 : Nat) ≤ 1 ∧ (1 : Nat) ≤ 63 ∧ (63 : Nat) ≤ 63 := by decide

theorem witness_CursorAgreesWithTheOffset :
    (∀ w ∈ [3, 11, 64], w ≤ 64) ∧ 0 ≤ [3, 11, 64].length ∧ 3 ≤ [3, 11, 64].length := by decide

theorem witness_FieldRangesAreDisjoint :
    0 < [3, 11, 64].length ∧ 2 < [3, 11, 64].length ∧ ((1 : Nat), (2 : Nat)) ≠ (2, 0) := by decide

/-- Both sides of the storage bound. -/
theorem witness_CfguBuildsAUniformContainer :
    State.reset.cfg.Legal ∧ max 1 (((37449 : Word).toNat * bitWidth 127 + 63) / 64) ≤ State.reset.cfg.nwMax ∧
    max 1 (((37450 : Word).toNat * bitWidth 127 + 63) / 64) > State.reset.cfg.nwMax := by decide

/-- Both sides of the field bound, and a request that storage cannot hold. -/
theorem witness_CfgmBuildsAMultiFieldContainer :
    State.reset.cfg.Legal ∧
    ((List.replicate 8 (1 : Word)).length ≤ State.reset.cfg.nfMax ∧
      max 1 (((1 : Word).toNat * ((List.replicate 8 (1 : Word)).map bitWidth).sum + 63) / 64) ≤
        State.reset.cfg.nwMax) ∧
    (List.replicate 9 (1 : Word)).length > State.reset.cfg.nfMax ∧
    max 1 (((37450 : Word).toNat * ([(127 : Word)].map bitWidth).sum + 63) / 64) > State.reset.cfg.nwMax := by
  decide

/-- A record width of 0 and another. -/
theorem witness_CapReturnsTheExactBound :
    ((holding .multi [] 0 []).valid = true ∧ (holding .multi [] 0 []).rb.toNat = 0) ∧
    small.valid = true ∧ small.rb.toNat ≠ 0 := by decide

theorem witness_FreshCapacityCoversTheHint :
    State.reset.cfg.Legal ∧
    exec (.cfgu 10 100) State.reset = .next { holding .uniform [7] 2 [] with rsp := [0#64] } ∧
    exec (.cfgm 2 [5, 1025]) State.reset = .next { holding .multi [3, 11] 1 [] with rsp := [0#64] } ∧
    (holding .uniform [7] 2 []).valid = true ∧ 9 < (10 : Word).toNat := ⟨by decide, rfl, rfl, rfl, by decide⟩

/-- A wrong value count; the first record out of range, with the right count. -/
theorem witness_ArgCountAndIndexRangeFaults :
    small.valid = true ∧ ([] : List Word).length ≠ small.nf.toNat ∧
    [(1 : Word)].length = small.nf.toNat ∧ 64 * small.nw.toNat < ((18 : Word).toNat + 1) * small.rb.toNat := by
  decide

theorem witness_CrossingWriteWrittenOut :
    Memory.wf [(3, 0xFFE0000000000000), (4, 0x3FF)] ∧ (60 : Nat) ≤ 63 ∧ (7 : Nat) ≤ 64 ∧ 60 + 7 > 64 ∧
    3 + 1 < 14 := by decide

/-- The last record in range. -/
theorem witness_SetWritesExactlyTheRecord :
    small.Inv ∧ small.valid = true ∧ [(0x55 : Word)].length = small.nf.toNat ∧
    ((17 : Word).toNat + 1) * small.rb.toNat ≤ 64 * small.nw.toNat := by decide

theorem witness_GetReadsTheRecord :
    triple.Inv ∧ triple.valid = true ∧ ((3 : Word).toNat + 1) * triple.rb.toNat ≤ 64 * triple.nw.toNat := by decide

/-- Record 9 written, then CAP, DUMP on a failing sink, and a SET of record 8 between. -/
theorem witness_SetThenGetRoundTrip :
    small.Inv ∧ small.valid = true ∧ exec (.set 9 [0x55]) small = .next smallSet ∧
    smallSet.rsp = small.rsp ++ [0x0000000000000000#64] ∧
    (∀ c ∈ [Instr.cap, .set 8 [1]], isConstructor c = false ∧ setsRecord 9 c = false) ∧
    ∃ u, execAll [.cap, .set 8 [1]] smallSet = some u :=
  ⟨by decide, by decide, rfl, by decide, by decide, _, rfl⟩

theorem witness_SecondSetLeavesNoResidue :
    triple.Inv ∧ triple.valid = true ∧ [(1 : Word), 2, 3].length = triple.nf.toNat ∧
    [(7 : Word), 7, 7].length = triple.nf.toNat ∧
    ((3 : Word).toNat + 1) * triple.rb.toNat ≤ 64 * triple.nw.toNat := by decide

theorem witness_SetLeavesOtherRecords :
    small.Inv ∧ small.valid = true ∧ exec (.set 9 [0x55]) small = .next smallSet ∧ (8 : Word) ≠ 9 ∧
    ((8 : Word).toNat + 1) * small.rb.toNat ≤ 64 * small.nw.toNat :=
  ⟨by decide, by decide, rfl, by decide, by decide⟩

theorem witness_UnsetFieldsReadZero :
    State.reset.Inv ∧ exec (.cfgu 10 100) State.reset = .next { holding .uniform [7] 2 [] with rsp := [0#64] } ∧
    (holding .uniform [7] 2 []).valid = true ∧
    ((17 : Word).toNat + 1) * (holding .uniform [7] 2 []).rb.toNat ≤
      64 * (holding .uniform [7] 2 []).nw.toNat := ⟨by decide, rfl, rfl, by decide⟩

theorem witness_LittleEndianBytes : ([1, 2, 3, 4, 5, 6, 7, 8] : List Byte).length = 8 := by decide

/-- One container of each mode. -/
theorem witness_SnapshotLayout :
    (small.Inv ∧ small.valid = true ∧ small.mode = .uniform ∧ 1 < small.nw.toNat) ∧
    triple.Inv ∧ triple.valid = true ∧ triple.mode = .multi ∧ 4 < triple.nw.toNat :=
  ⟨⟨by decide, by decide, by decide, by decide⟩, by decide, by decide, by decide, by decide⟩

/-- A sink that never fails, one that fails just after the snapshot, one that fails just before its end. -/
theorem witness_DumpDeliversTheSnapshot :
    small.valid = true ∧ small.snk.ready = true ∧ small.snk.stops = [] ∧
    ((small.withSnk { got := [], stops := [25], ready := true }).snk.stops = 25 :: [] ∧
      (small.withSnk { got := [], stops := [25], ready := true }).snapshot.length ≤ 25) ∧
    (small.withSnk { got := [], stops := [24], ready := true }).snk.stops = 24 :: [] ∧
    24 < (small.withSnk { got := [], stops := [24], ready := true }).snapshot.length := by decide

/-- L12 of 95_test_vectors.md 2.6, with a byte after it, on a source that never fails and on one that fails just after
the snapshot's 17 bytes. -/
theorem witness_LduLoadsTheSnapshot :
    State.reset.cfg.Legal ∧ (fed []).src.ready = true ∧ (fed []).src.stops = [] ∧
    (∀ r rs, [17] = r :: rs → 9 + 8 * [(0x1122334455667788 : Word)].length ≤ r) ∧
    (failing [17] (fed ([0x40] ++ le64 1 ++ le64 0x1122334455667788 ++ [9]))).src.ready = true ∧
    (failing [17] (fed ([0x40] ++ le64 1 ++ le64 0x1122334455667788 ++ [9]))).src.stops = [17] ∧
    (failing [17] (fed ([0x40] ++ le64 1 ++ le64 0x1122334455667788 ++ [9]))).src.ahead =
      [0x40] ++ le64 (BitVec.ofNat 64 [(0x1122334455667788 : Word)].length) ++
        [(0x1122334455667788 : Word)].flatMap le64 ++ [9] ∧
    (0x40 : Byte).toNat ≤ 64 ∧ [(0x1122334455667788 : Word)].length ≤ State.reset.cfg.nwMax :=
  ⟨by decide, rfl, rfl, fun r rs h => by cases h; decide, rfl, rfl, by decide, by decide, by decide⟩

/-- Widths 3 and 64, one word, and a byte after it, on a source that fails just after the snapshot's 26 bytes. -/
theorem witness_LdmLoadsTheSnapshot :
    State.reset.cfg.Legal ∧ (fed []).src.ready = true ∧ (fed []).src.stops = [] ∧
    (∀ r rs, [26] = r :: rs → 16 + [(3 : Byte), 64].length + 8 * [(7 : Word)].length ≤ r) ∧
    (failing [26] (fed (le64 2 ++ le64 1 ++ [3, 64] ++ le64 7 ++ [9]))).src.ready = true ∧
    (failing [26] (fed (le64 2 ++ le64 1 ++ [3, 64] ++ le64 7 ++ [9]))).src.stops = [26] ∧
    (failing [26] (fed (le64 2 ++ le64 1 ++ [3, 64] ++ le64 7 ++ [9]))).src.ahead =
      le64 (BitVec.ofNat 64 [(3 : Byte), 64].length) ++ le64 (BitVec.ofNat 64 [(7 : Word)].length) ++ [3, 64] ++
        [(7 : Word)].flatMap le64 ++ [9] ∧
    [(3 : Byte), 64].length ≤ State.reset.cfg.nfMax ∧ (∀ w ∈ [(3 : Byte), 64], w.toNat ≤ 64) ∧
    [(7 : Word)].length ≤ State.reset.cfg.nwMax :=
  ⟨by decide, rfl, rfl, fun r rs h => by cases h; decide, rfl, rfl, by decide, by decide, by decide, by decide⟩

/-- The clauses of the uniform load: 8 bytes where 9 are the header; width 65; 4097 words; 7 bytes of a word. -/
theorem witness_LduReportsTheFirstFailure :
    (fed []).src.ready = true ∧ (fed [7, 1, 0, 0, 0, 0, 0, 0]).src.deliverable < 9 ∧
    (9 ≤ (fed ([65] ++ le64 1)).src.deliverable ∧ ∃ w ∈ (fed ([65] ++ le64 1)).src.ahead.take 1, w.toNat > 64) ∧
    (9 ≤ (fed ([64] ++ le64 4097)).src.deliverable ∧
      (∀ w ∈ (fed ([64] ++ le64 4097)).src.ahead.take 1, w.toNat ≤ 64) ∧
      (fromLe64 (((fed ([64] ++ le64 4097)).src.ahead.drop 1).take 8)).toNat >
        (fed ([64] ++ le64 4097)).cfg.nwMax) ∧
    9 ≤ (fed ([64] ++ le64 1 ++ List.replicate 7 0)).src.deliverable ∧
    (fromLe64 (((fed ([64] ++ le64 1 ++ List.replicate 7 0)).src.ahead.drop 1).take 8)).toNat ≤
      (fed ([64] ++ le64 1 ++ List.replicate 7 0)).cfg.nwMax ∧
    (fed ([64] ++ le64 1 ++ List.replicate 7 0)).src.deliverable < 9 + 8 * 1 := by decide

/-- The first three clauses of the multi-field load: 15 bytes of 16; 9 fields; 1 width byte of 2. -/
theorem witness_LdmReportsTheFirstFailure :
    (fed []).src.ready = true ∧ (fed (List.replicate 15 0)).src.deliverable < 16 ∧
    (16 ≤ (fed (le64 9 ++ le64 1)).src.deliverable ∧
      (fromLe64 ((fed (le64 9 ++ le64 1)).src.ahead.take 8)).toNat > (fed (le64 9 ++ le64 1)).cfg.nfMax) ∧
    16 ≤ (fed (le64 2 ++ le64 1 ++ [3])).src.deliverable ∧
    (fromLe64 ((fed (le64 2 ++ le64 1 ++ [3])).src.ahead.take 8)).toNat ≤
      (fed (le64 2 ++ le64 1 ++ [3])).cfg.nfMax ∧
    (fed (le64 2 ++ le64 1 ++ [3])).src.deliverable < 16 + 2 := by decide

/-- The last three clauses of the multi-field load: width 65; 4097 words; 7 bytes of a word. -/
theorem witness_LdmReportsTheFirstFailure_body :
    (16 + 2 ≤ (fed (le64 2 ++ le64 4097 ++ [3, 65])).src.deliverable ∧
      (fromLe64 ((fed (le64 2 ++ le64 4097 ++ [3, 65])).src.ahead.take 8)).toNat = 2 ∧
      ∃ w ∈ ((fed (le64 2 ++ le64 4097 ++ [3, 65])).src.ahead.drop 16).take 2, w.toNat > 64) ∧
    (16 + 2 ≤ (fed (le64 2 ++ le64 4097 ++ [3, 64])).src.deliverable ∧
      (∀ w ∈ ((fed (le64 2 ++ le64 4097 ++ [3, 64])).src.ahead.drop 16).take 2, w.toNat ≤ 64) ∧
      (fromLe64 (((fed (le64 2 ++ le64 4097 ++ [3, 64])).src.ahead.drop 8).take 8)).toNat >
        (fed (le64 2 ++ le64 4097 ++ [3, 64])).cfg.nwMax) ∧
    16 + 0 ≤ (fed (le64 0 ++ le64 1 ++ List.replicate 7 0)).src.deliverable ∧
    (fromLe64 (((fed (le64 0 ++ le64 1 ++ List.replicate 7 0)).src.ahead.drop 8).take 8)).toNat ≤
      (fed (le64 0 ++ le64 1 ++ List.replicate 7 0)).cfg.nwMax ∧
    (fed (le64 0 ++ le64 1 ++ List.replicate 7 0)).src.deliverable < 16 + 0 + 8 * 1 := by decide

/-- A container of each mode, dumped and offered to a core just reset, on a source that fails just after the 25 bytes
of the first snapshot and on one that never fails. -/
theorem witness_SnapshotRoundTrip :
    (small.Inv ∧ small.valid = true ∧ State.reset.cfg.Legal ∧ small.cfg.nfMax ≤ State.reset.cfg.nfMax ∧
      small.cfg.nwMax ≤ State.reset.cfg.nwMax ∧ (failing [25] (fed (small.snapshot ++ [9]))).src.ready = true ∧
      (failing [25] (fed (small.snapshot ++ [9]))).src.stops = [25] ∧ small.snapshot.length = 25 ∧
      (failing [25] (fed (small.snapshot ++ [9]))).src.ahead = small.snapshot ++ [9]) ∧
    triple.Inv ∧ triple.valid = true ∧ (fed triple.snapshot).src.stops = [] ∧
    (fed triple.snapshot).src.ahead = triple.snapshot ++ [] :=
  ⟨⟨by decide, by decide, by decide, by decide, by decide, rfl, rfl, by decide, by decide⟩, by decide, by decide,
    rfl, by decide⟩

end Sys2Proof.Tests
end

section
/-! PROOF. The family 10_state.md: what reset, a command and a step do to the invariant of the core, to `VALID` and to
the registers of a container. The two inductive predicates say once how a command ends, constructors and the others
apart; the statements are read off them. -/

namespace Sys2Proof.Machine

/-! ## How a command ends -/

/-- The statuses that a command which does not halt the core reports as errors (60_exceptions.md R136). -/
abbrev Status.IsError (st : Status) : Prop := st = .ioError ∨ st = .formatError ∨ st = .resourceError

/-- The statuses of the faults that a command can raise (60_exceptions.md R138 to R140);
ILLEGAL_COMMAND is a header's (R137). -/
abbrev Status.IsCommandFault (st : Status) : Prop := st = .noContainer ∨ st = .argCount ∨ st = .indexRange

/-- The ways in which a command that is no constructor answers a next state. -/
inductive State.PlainEnd (s : State) : Instr → State → Prop where
  /-- A fault of the spec (60_exceptions.md R141); BITW raises none (R138). -/
  | raised (i : Instr) (st : Status) (hst : st.IsCommandFault) (hi : ∀ a, i ≠ .bitw a) :
      PlainEnd s i ((s.withFault st.code).respond st [])
  /-- A response and nothing else (BITW, CAP, GET). -/
  | answered (i : Instr) (qs : List Word) (hd : i ≠ .dump) (hs : ∀ n vs, i ≠ .set n vs) (hq : qs.length ≤ 255) :
      PlainEnd s i (s.respond .ok qs)
  /-- The fields of a record in range stored (43_field_access.md R100). -/
  | stored (n : Word) (vs : List Word) (m : Memory) (hv : s.valid = true) (hn : vs.length = s.nf.toNat)
      (hr : s.InRange n.toNat) (hw : s.WidthsLegal) (hm : s.writeRecord n.toNat vs = some m) :
      PlainEnd s (.set n vs) ((s.withMem m).respond .ok [])
  /-- The snapshot, or a part of it, given to the sink (44_snapshot.md R116, R119). -/
  | dumped (snk : Sink) (st : Status) (hv : s.valid = true) (hr : s.snk.ready = true)
      (hd : (st = .ok ∧ s.dumpTo = (snk, true)) ∨ (st = .ioError ∧ s.dumpTo = (snk, false))) :
      PlainEnd s .dump ((s.withSnk snk).respond st [])
  /-- A DUMP that waits at a silent sink (log 14). -/
  | waits (hv : s.valid = true) (hr : s.snk.ready = false) : PlainEnd s .dump (s.withHeld (some .dump))

/-- The ways in which a constructor answers a next state (10_state.md R11). -/
inductive State.ConstructorEnd (s : State) (i : Instr) : State → Prop where
  /-- A load that waits at a silent source (log 12). -/
  | waits (k : Held) (hk : k.instr = i) (hp : ¬ s.PortsAnswer i) :
      ConstructorEnd s i (s.dropContainer.withHeld (some k))
  /-- An error, and no container (42_configuration.md R97, 44_snapshot.md R128). -/
  | failed (src : Source) (st : Status) (hp : s.PortsAnswer i) (hst : st.IsError) :
      ConstructorEnd s i ((s.withSrc src).failConstructor st)
  /-- A container as 10_state.md R19 asks for it. The parameters need not be legal here, so a uniform container may
  have its one field where they leave no room for it. -/
  | built (src : Source) (mode : Mode) (widths : List Nat) (nw : Nat) (m : Memory) (hp : s.PortsAnswer i)
      (hl : widths.length ≤ max 1 s.cfg.nfMax) (hu : mode = .uniform → widths.length = 1)
      (hw : ∀ w ∈ widths, w ≤ 64) (hn : nw ≤ s.cfg.nwMax) (hm : m.wf) (hc : ∀ c ∈ m, c.1 < nw) :
      ConstructorEnd s i (((s.withSrc src).install mode widths nw m).respond .ok [])

/-- A record has no more fields than the 8-bit field count can say. -/
theorem State.readRecord_length_le {s : State} {n : Nat} {qs : List Word} (h : s.readRecord n = some qs) :
    qs.length ≤ 255 := by
  have hlen : qs.length = s.widths.length := readFields_length h
  have hle := s.widths_length_le
  have hnf := s.nf.isLt
  omega

/-- Every next state of a command that is no constructor is one of `State.PlainEnd`. -/
theorem exec_plainEnd {i : Instr} {s t : State} (hc : isConstructor i = false) (h : exec i s = .next t) :
    s.PlainEnd i t := by
  cases i with
  | bitw a => injection h with h; subst h; exact .answered _ _ (by simp) (by simp) (by simp)
  | cap =>
    rcases execCap_next h with ⟨-, rfl⟩ | ⟨-, rfl⟩
    · exact .raised _ .noContainer (.inl rfl) (by simp)
    · exact .answered _ _ (by simp) (by simp) (by simp)
  | set n vs =>
    rcases execSet_next h with ⟨st, hst, rfl⟩ | ⟨hv, hn, hr, hw, m, hm, rfl⟩
    · exact .raised _ st hst (by simp)
    · exact .stored n vs m hv hn hr hw hm
  | get n =>
    rcases execGet_next h with ⟨st, hst, rfl⟩ | ⟨-, -, -, qs, hq, rfl⟩
    · exact .raised _ st (hst.imp_right .inr) (by simp)
    · exact .answered _ qs (by simp) (by simp) (State.readRecord_length_le hq)
  | dump =>
    rcases execDump_next h with ⟨-, rfl⟩ | ⟨hv, hr, rfl⟩ | ⟨hv, hr, snk, st, hd, rfl⟩
    · exact .raised _ .noContainer (.inl rfl) (by simp)
    · exact .waits hv hr
    · exact .dumped snk st hv hr hd
  | cfgu _ _ | cfgm _ _ | ldu | ldm => cases hc

/-- A construction ends as a constructor does; a uniform one asks for one field. -/
theorem construct_constructorEnd {i : Instr} {mode : Mode} {cap : Word} {hints : List Word} {s : State}
    (hp : s.PortsAnswer i) (hu : mode = .uniform → hints.length = 1) :
    s.ConstructorEnd i (construct mode cap hints s) := by
  rcases construct_cases mode cap hints s with e | ⟨hl, hn, e⟩
  · rw [e]; exact .failed s.src .resourceError hp (.inr (.inr rfl))
  · rw [e]
    refine .built s.src mode (hints.map bitWidth) _ [] hp (by simp [hl]) (by simpa using hu) ?_ hn
      Memory.wf_nil (by simp)
    intro w hw
    obtain ⟨x, -, rfl⟩ := List.mem_map.1 hw
    exact bitWidth_le x

/-- A load ends as a constructor does, where its header reports errors only and its format bounds the fields declared. -/
theorem load_constructorEnd {i : Instr} {mode : Mode} {hd : Source × Except Status LoadHeader} {s : State}
    (hp : s.PortsAnswer i) (herr : ∀ st, hd.2 = .error st → st.IsError)
    (hok : ∀ h, hd.2 = .ok h → h.widths.length ≤ max 1 s.cfg.nfMax ∧ (mode = .uniform → h.widths.length = 1)) :
    s.ConstructorEnd i (load mode hd s) := by
  rcases load_cases mode hd s herr with ⟨src, st, hst, e⟩ | ⟨h, src, m, hh, hw, hn, hr, e⟩
  · rw [e]; exact .failed _ st hp hst
  · obtain ⟨hl, hu⟩ := hok h hh
    obtain ⟨hm, hc⟩ := readWords_spec _ _ _ _ _ _ Memory.wf_nil (by simp) hr
    rw [e]; exact .built src mode h.widths h.words m hp hl hu hw hn hm (by simpa using hc)

/-- Every next state of a constructor is one of `State.ConstructorEnd`. -/
theorem exec_constructorEnd {i : Instr} {s t : State} (hc : isConstructor i = true) (h : exec i s = .next t) :
    s.ConstructorEnd i t := by
  cases i with
  | cfgu cap hint => injection h with h; subst h; exact construct_constructorEnd (by simp [State.PortsAnswer]) (by simp)
  | cfgm cap hints => injection h with h; subst h; exact construct_constructorEnd (by simp [State.PortsAnswer]) (by simp)
  | ldu =>
    rcases execLdu_next h with ⟨hr, rfl⟩ | ⟨hr, rfl⟩
    · exact .waits .ldu rfl (by simp [State.PortsAnswer, hr])
    · refine load_constructorEnd (by simp [State.PortsAnswer, hr]) (fun st e => ?_) fun hd e => ?_
      · exact .inl (readUniformHeader_error (Prod.ext rfl e))
      · have hl := readUniformHeader_widths (Prod.ext rfl e)
        exact ⟨by simp [hl], fun _ => hl⟩
  | ldm =>
    rcases execLdm_next h with ⟨hr, rfl⟩ | ⟨hr, rfl⟩
    · exact .waits .ldm rfl (by simp [State.PortsAnswer, hr])
    · refine load_constructorEnd (by simp [State.PortsAnswer, hr]) (fun st e => ?_) fun hd e => ?_
      · exact (readMultiHeader_error (Prod.ext rfl e)).imp_right .inr
      · exact ⟨le_max_of_le_right (readMultiHeader_widths (Prod.ext rfl e)), by simp⟩
  | bitw _ | cap | set _ _ | get _ | dump => cases hc

/-- Without a container CAP, DUMP, GET and SET raise NO_CONTAINER before any other test (10_state.md R11). -/
theorem exec_of_valid_false {i : Instr} {s : State} (hv : s.valid = false)
    (hi : i = .cap ∨ i = .dump ∨ (∃ n, i = .get n) ∨ ∃ n vs, i = .set n vs) :
    exec i s = raiseFault .noContainer s := by
  rcases hi with rfl | rfl | ⟨n, rfl⟩ | ⟨n, vs, rfl⟩
  · simp [exec, execCap, hv]
  · simp [exec, execDump, hv]
  · simp [exec, execGet, hv]
  · simp [exec, execSet, hv]

/-! ## What the operations do to the invariant -/

theorem Status.IsCommandFault.isFault {st : Status} (h : st.IsCommandFault) : st.isFault = true := by
  rcases h with rfl | rfl | rfl <;> rfl

theorem State.faultLegal_withFault {st : Status} (h : st.isFault = true) (s : State) :
    (s.withFault st.code).FaultLegal := by
  revert h; cases st <;> simp [Status.isFault, Status.code, State.FaultLegal]

theorem State.inv_withFault {s : State} {c : BitVec 8} (h : s.Inv) (hc : (s.withFault c).FaultLegal) :
    (s.withFault c).Inv := by
  obtain ⟨hcfg, -, hfw, hmem, hcont⟩ := h
  exact ⟨hcfg, hc, hfw, hmem, hcont⟩

/-- The invariant says nothing of the ports, of the response still to be sent and of a stuck command. -/
theorem State.inv_respond {s : State} (h : s.Inv) (st : Status) (rs : List Word) : (s.respond st rs).Inv := h

theorem State.inv_withSrc {s : State} (h : s.Inv) (src : Source) : (s.withSrc src).Inv := h

theorem State.inv_withSnk {s : State} (h : s.Inv) (snk : Sink) : (s.withSnk snk).Inv := h

theorem State.inv_withCmd {s : State} (h : s.Inv) (cmd : List Word) : (s.withCmd cmd).Inv := h

theorem State.inv_withHeld {s : State} (h : s.Inv) (held : Option Held) : (s.withHeld held).Inv := h

theorem State.inv_send {s : State} (h : s.Inv) : s.send.Inv := h

theorem State.inv_emit {t : State} (h : t.Inv) (s : State) : (s.emit t).Inv := by
  rcases s.emit_cases t with ⟨-, e⟩ | ⟨k, -, e⟩ <;> rw [e] <;> exact h

theorem State.inv_afterReset {s : State} (h : s.Inv) : s.afterReset.Inv :=
  State.inv_withFault (c := 0x00#8) (State.inv_dropContainer h) (.inl rfl)

/-- The storage that SET leaves is canonical and lists owned words only. -/
theorem State.inv_withMem_writeRecord {s : State} {n : Nat} {vs : List Word} {m : Memory} (h : s.Inv)
    (hv : s.valid = true) (hn : vs.length = s.nf.toNat) (hr : s.InRange n) (hm : s.writeRecord n vs = some m) :
    (s.withMem m).Inv := by
  obtain ⟨hcfg, hfault, hfw, hmem, hcont⟩ := h
  obtain ⟨hnf, hmode, hw, hrb, hnw, hown⟩ := hcont hv
  have hlen : s.widths.length = s.nf.toNat := State.widths_length (hfw ▸ hnf)
  obtain ⟨m', e, hwf, -, -, hown'⟩ := State.writeRecord_spec hmem (hn.trans hlen.symm) hw hrb hr
  obtain rfl : m = m' := Option.some.inj (hm.symm.trans e)
  exact ⟨hcfg, hfault, hfw, hwf, fun _ => ⟨hnf, hmode, hw, hrb, hnw, hown' hown⟩⟩

theorem State.PlainEnd.inv {s t : State} {i : Instr} (e : s.PlainEnd i t) (h : s.Inv) : t.Inv := by
  cases e with
  | raised _ st hst => exact State.inv_respond (State.inv_withFault h (State.faultLegal_withFault hst.isFault s)) _ _
  | answered => exact State.inv_respond h _ _
  | stored n vs m hv hn hr _ hm => exact State.inv_respond (State.inv_withMem_writeRecord h hv hn hr hm) _ _
  | dumped snk st => exact State.inv_respond (State.inv_withSnk h snk) _ _
  | waits => exact State.inv_withHeld h _

theorem State.ConstructorEnd.inv {s t : State} {i : Instr} (e : s.ConstructorEnd i t) (h : s.Inv) : t.Inv := by
  cases e with
  | waits => exact State.inv_withHeld (State.inv_dropContainer h) _
  | failed src => exact State.inv_respond (State.inv_dropContainer (State.inv_withSrc h src)) _ _
  | built src mode ws nw m hp hl hu hw hn hm hc =>
    obtain ⟨⟨hnf, -⟩, -⟩ := id h
    exact State.inv_respond (State.inv_install (State.inv_withSrc h src) (max_eq_right hnf ▸ hl) hu hw hn hm hc) _ _

/-- Every command keeps the invariant. -/
theorem State.Inv.of_exec {i : Instr} {s t : State} (h : s.Inv) (e : exec i s = .next t) : t.Inv := by
  cases hc : isConstructor i with
  | false => exact (exec_plainEnd hc e).inv h
  | true => exact (exec_constructorEnd hc e).inv h

/-- Every turn without reset keeps the invariant. -/
theorem State.Inv.of_runCommand {s t : State} (h : s.Inv) (e : runCommand s = .next t) : t.Inv := by
  rcases runCommand_next e with ⟨-, -, rfl⟩ | ⟨-, -, u, rfl, hu⟩
  · exact State.inv_emit (State.inv_send h) s
  · refine State.inv_emit ?_ s
    rcases hu with ⟨k, -, -, hx⟩ | ⟨-, ⟨i, rest, -, hx⟩ | ⟨why, rest, -, rfl⟩⟩
    · exact (State.inv_withHeld h none).of_exec hx
    · exact (State.inv_withCmd h rest).of_exec hx
    · exact State.inv_respond (State.inv_withFault (State.inv_withCmd h rest)
        (State.faultLegal_withFault (st := .illegalCommand) rfl _)) _ _

/-- Settles O16: a step is a reset or a turn without reset, and each keeps the invariant. -/
theorem stepKeepsTheInvariant : Obligations.StepKeepsTheInvariant := by
  intro s t h e
  rcases step_next e with ⟨moved, -, rfl⟩ | ⟨-, e⟩
  · obtain ⟨src, snk, e⟩ := s.resetDuring_cases moved
    rw [e]; exact State.inv_afterReset (State.inv_withSnk (State.inv_withSrc h src) snk)
  · exact h.of_runCommand e

/-! ## Reset -/

theorem State.inv_resetWith {c : Params} (h : c.Legal) : (State.resetWith c).Inv :=
  ⟨h, .inl rfl, List.length_replicate, Memory.wf_nil, by simp [State.resetWith]⟩

theorem State.heldInv_of_held_none {s : State} (h : s.held = none) : s.HeldInv := by
  simp [State.HeldInv, h]

/-- Settles O17: the state after reset has no container, no fault and no stuck command. -/
theorem resetMeetsTheInvariant : Obligations.ResetMeetsTheInvariant := by
  have all : ∀ c : Params, c.Legal → (State.resetWith c).Inv ∧ (State.resetWith c).HeldInv :=
    fun c hc => ⟨State.inv_resetWith hc, State.heldInv_of_held_none rfl⟩
  exact ⟨all Params.vectors (by decide), all⟩

/-! ## The registers and `VALID` -/

/-- Settles O24: each way a command that is no constructor ends writes the fields named and no other. -/
theorem onlyConstructorsWriteTheRegisters : Obligations.OnlyConstructorsWriteTheRegisters := by
  intro i s t hc h
  cases exec_plainEnd hc h with
  | raised _ st hst hi =>
    exact ⟨fun _ => ⟨rfl, .inl rfl⟩, fun _ => rfl, fun _ => rfl, fun ⟨a, ha⟩ => absurd ha (hi a),
      .inr ⟨st, hst.isFault, rfl, rfl⟩⟩
  | answered _ qs hd => exact ⟨fun e => absurd e hd, fun _ => rfl, fun _ => rfl, fun _ => rfl, .inl rfl⟩
  | stored n vs m => exact ⟨by simp, fun _ => rfl, by simp, by simp, .inl rfl⟩
  | dumped snk st => exact ⟨fun _ => ⟨rfl, .inl rfl⟩, by simp, by simp, by simp, .inl rfl⟩
  | waits _ hr => exact ⟨fun _ => ⟨rfl, .inr ⟨rfl, hr⟩⟩, by simp, by simp, by simp, .inl rfl⟩

theorem State.PlainEnd.valid {s t : State} {i : Instr} (e : s.PlainEnd i t) : t.valid = s.valid := by
  cases e <;> rfl

/-- What `VALID` and the response port show of a constructor's end. -/
theorem State.ConstructorEnd.valid_rsp {s t : State} {i : Instr} (e : s.ConstructorEnd i t) :
    (s.PortsAnswer i →
      (t.valid = true ∧ t.rsp = s.rsp ++ [rspHeader .ok 0]) ∨
      (t.valid = false ∧ ∃ st : Status, st.IsError ∧ t.rsp = s.rsp ++ [rspHeader st 0])) ∧
    (¬ s.PortsAnswer i → t.valid = false ∧ t.rsp = s.rsp) := by
  cases e with
  | waits k _ hp => exact ⟨fun h => absurd h hp, fun _ => ⟨rfl, rfl⟩⟩
  | failed src st hp hst => exact ⟨fun _ => .inr ⟨rfl, st, hst, rfl⟩, fun h => absurd hp h⟩
  | built src mode ws nw m hp => exact ⟨fun _ => .inl ⟨rfl, rfl⟩, fun h => absurd hp h⟩

/-- Settles O22: the constructors by the way they end, the other commands by theirs, and NO_CONTAINER by the test that
comes first. -/
theorem validSaysWhetherAContainerExists : Obligations.ValidSaysWhetherAContainerExists :=
  ⟨rfl, fun _ _ _ hc h => (exec_constructorEnd hc h).valid_rsp, fun _ _ _ hc h => (exec_plainEnd hc h).valid,
    fun _ _ hv hi => exec_of_valid_false hv hi⟩

/-! ## A container just built -/

/-- A construction that leaves a container leaves blank storage (10_state.md R22). -/
theorem construct_mem {mode : Mode} {cap : Word} {hints : List Word} {s : State}
    (hv : (construct mode cap hints s).valid = true) : (construct mode cap hints s).mem = [] := by
  rcases construct_cases mode cap hints s with e | ⟨-, -, e⟩ <;> rw [e] at hv ⊢
  · cases hv
  · rfl

theorem Memory.bitAt_nil (b : Nat) : Memory.bitAt [] b = false := by
  simp [Memory.bitAt, blankWord]

/-- A record in range of blank storage reads as zeros. -/
theorem State.readRecord_of_mem_nil {s : State} {n : Nat} (hw : s.WidthsLegal) (hrb : s.rb.toNat = s.widths.sum)
    (hin : s.InRange n) (hmem : s.mem = []) : s.readRecord n = some (List.replicate s.widths.length 0#64) := by
  obtain ⟨qs, e, hlen, hbits⟩ := State.readRecord_spec hw hrb hin
  rw [e, Option.some.injEq]
  refine List.ext_getElem (by simp [hlen]) fun k hk hk' => BitVec.eq_of_getLsbD_eq fun j _ => ?_
  rw [hbits k (by omega) hk j, hmem, Memory.bitAt_nil]
  simp

/-- GET of a record in range whose fields can be read answers them. -/
theorem execGet_of_readRecord {s : State} {n : Word} {qs : List Word} (hv : s.valid = true) (hin : s.InRange n.toNat)
    (hw : s.WidthsLegal) (hq : s.readRecord n.toNat = some qs) : execGet n s = .next (s.respond .ok qs) := by
  unfold execGet
  rw [if_neg (by simp [hv]), if_neg (not_not.2 hin), if_neg (not_not.2 hw), hq]

/-- Settles O43: the container just built meets the invariant and its storage is blank. -/
theorem unsetFieldsReadZero : Obligations.UnsetFieldsReadZero := by
  intro i n s t h hi e hv hin
  have hmem : t.mem = [] := by
    rcases hi with ⟨cap, hint, rfl⟩ | ⟨cap, hints, rfl⟩ <;> injection e with e <;> subst e <;> exact construct_mem hv
  obtain ⟨-, -, hfw, -, hcont⟩ := h.of_exec e
  obtain ⟨hnf, -, hw, hrb, -, -⟩ := hcont hv
  have hlen : t.widths.length = t.nf.toNat := State.widths_length (hfw ▸ hnf)
  have hget := execGet_of_readRecord hv hin hw (State.readRecord_of_mem_nil hw hrb hin hmem)
  rw [hlen] at hget
  refine hget.trans ?_
  rw [State.respond, List.length_replicate]
  rfl

end Sys2Proof.Machine
end

section
/-! PROOF. The family 20_memory.md: the byte order of the snapshot stream. The bytes of `le64` are the digits of the word
in base `2^8`, and `fromLe` is the number with given digits, for any count of bytes; the word of 8 bytes is a case. -/

namespace Sys2Proof.Machine

/-- Byte `k` of `le64 v` as a digit of `v` (20_memory.md R38). -/
theorem toNat_le64_getElem (v : Word) (k : Nat) (hk : k < (le64 v).length) :
    (le64 v)[k].toNat = v.toNat / 2 ^ (8 * k) % 2 ^ 8 := by
  simp only [le64, List.getElem_map, List.getElem_range, BitVec.extractLsb'_toNat, Nat.shiftRight_eq_div_pow]

theorem fromLe_cons (b : Byte) (bs : List Byte) : fromLe (b :: bs) = b.toNat + 2 ^ 8 * fromLe bs := rfl

/-- A digit further up is a digit of the number without its lowest byte. -/
theorem digit_succ (n k : Nat) : n / 2 ^ (8 * (k + 1)) = n / 2 ^ 8 / 2 ^ (8 * k) := by
  rw [Nat.div_div_eq_div_mul, ← Nat.pow_add, Nat.mul_succ, Nat.add_comm]

theorem fromLe_lt (bs : List Byte) : fromLe bs < 2 ^ (8 * bs.length) := by
  induction bs with
  | nil => exact Nat.one_pos
  | cons b bs ih =>
    have hb : b.toNat < 2 ^ 8 := b.isLt
    rw [fromLe_cons, List.length_cons, Nat.mul_succ, Nat.pow_add]
    omega

/-- The digits of `fromLe bs` are the bytes `bs`. -/
theorem fromLe_digit (bs : List Byte) (k : Nat) (hk : k < bs.length) :
    fromLe bs / 2 ^ (8 * k) % 2 ^ 8 = bs[k].toNat := by
  induction bs generalizing k with
  | nil => exact absurd hk (Nat.not_lt_zero k)
  | cons b bs ih =>
    have hb : b.toNat < 2 ^ 8 := b.isLt
    rw [fromLe_cons]
    cases k with
    | zero =>
      rw [Nat.mul_zero, Nat.pow_zero, Nat.div_one, List.getElem_cons_zero]
      omega
    | succ k =>
      have hdrop : (b.toNat + 2 ^ 8 * fromLe bs) / 2 ^ 8 = fromLe bs := by omega
      rw [digit_succ, hdrop]
      exact ih k (Nat.lt_of_succ_lt_succ hk)

/-- Bytes that are the lowest digits of `n` give the low part of `n`. -/
theorem fromLe_of_digits (bs : List Byte) (n : Nat)
    (h : ∀ (k : Nat) (hk : k < bs.length), bs[k].toNat = n / 2 ^ (8 * k) % 2 ^ 8) :
    fromLe bs = n % 2 ^ (8 * bs.length) := by
  induction bs generalizing n with
  | nil => exact (Nat.mod_one n).symm
  | cons b bs ih =>
    have hb : b.toNat = n % 2 ^ 8 := by simpa using h 0 (Nat.succ_pos _)
    have hbs : fromLe bs = n / 2 ^ 8 % 2 ^ (8 * bs.length) :=
      ih _ fun k hk => digit_succ n k ▸ h (k + 1) (Nat.succ_lt_succ hk)
    rw [fromLe_cons, hb, hbs, List.length_cons, Nat.mul_succ, Nat.add_comm (8 * _), Nat.pow_add, Nat.mod_mul]

/-- Eight bytes lose nothing as a word. -/
theorem toNat_fromLe64 {bs : List Byte} (h : bs.length = 8) : (fromLe64 bs).toNat = fromLe bs := by
  have hlt : fromLe bs < 2 ^ 64 := by simpa [h] using fromLe_lt bs
  rw [fromLe64, BitVec.toNat_ofNat, Nat.mod_eq_of_lt hlt]

@[simp] theorem fromLe64_le64 (v : Word) : fromLe64 (le64 v) = v := by
  apply BitVec.eq_of_toNat_eq
  rw [toNat_fromLe64 (le64_length v), fromLe_of_digits _ _ (toNat_le64_getElem v), le64_length]
  exact Nat.mod_eq_of_lt v.isLt

theorem le64_fromLe64 {bs : List Byte} (h : bs.length = 8) : le64 (fromLe64 bs) = bs := by
  refine List.ext_getElem (by rw [le64_length, h]) fun k hk hk' => BitVec.eq_of_toNat_eq ?_
  rw [toNat_le64_getElem, toNat_fromLe64 h, fromLe_digit bs k hk']

/-- Settles O44: the bytes are the digits, and a word and its 8 digits determine each other. -/
theorem littleEndianBytes : Obligations.LittleEndianBytes :=
  ⟨fun v => ⟨le64_length v, fromLe64_le64 v, toNat_le64_getElem v⟩, fun _ h => le64_fromLe64 h⟩

end Sys2Proof.Machine
end

section
/-! PROOF. The family 30_encoding.md, the frames: the decoder answers a command exactly on the beats of that command's
frame, waits on a proper part of one, and refuses a header exactly in the three cases of R51. -/

namespace Sys2Proof

/-- A command whose vector operands fit the 8-bit count has a frame (30_encoding.md R47). -/
theorem Instr.wellFormed_of_vector_length_lt {i : Instr} (h : i.vector.length < 256) : i.wellFormed = true := by
  cases i with
  | cfgm a vs => exact decide_eq_true (Nat.le_of_lt_succ h)
  | set a vs => exact decide_eq_true (Nat.le_of_lt_succ h)
  | _ => rfl

/-- The number of operand beats determines the header's count. -/
theorem Opcode.frameBeats_sub_one_inj {op : Opcode} {n m : Nat} (h : op.frameBeats n - 1 = op.frameBeats m - 1) :
    n = m := by
  unfold Opcode.frameBeats at h
  omega

/-- Settles O1: the header of a well-formed command is legal and counts the operand beats that follow. -/
theorem decodeEncodeRoundTrip : Obligations.DecodeEncodeRoundTrip :=
  fun i _ h => decode_frame (Instr.decodeHeader_header h) i.operands_length i.assemble_operands

/-- Settles O2: a legal header has no bit beyond opcode and count, and the count is the one that `encode` writes,
since the operand beats taken are the command's. -/
theorem decodedFrameIsItsEncoding : Obligations.DecodedFrameIsItsEncoding := by
  intro beats rest i e
  cases beats with
  | nil => cases e
  | cons h ys =>
    obtain ⟨n, hd, hlen, rfl⟩ := decode_eq_frame e
    obtain ⟨rfl, hn, -⟩ := decodeHeader_eq_ok.1 hd
    obtain rfl : i.vector.length = n := Opcode.frameBeats_sub_one_inj (i.operands_length.symm.trans hlen)
    exact ⟨Instr.wellFormed_of_vector_length_lt hn, rfl⟩

/-- Settles O3: the beats of 30_encoding.md R59 are the frames of those commands. -/
theorem exampleFramesDecode : Obligations.ExampleFramesDecode :=
  ⟨decodeEncodeRoundTrip (.set 36#64 [0x34#64]) [] rfl,
    decodeEncodeRoundTrip (.cfgm 4#64 [5#64, 1025#64, 0x800000000001B207#64]) [] rfl,
    decodeEncodeRoundTrip (.get 2#64) [] rfl⟩

/-- A proper part of a well-formed command's frame is no frame yet (30_encoding.md R58). -/
theorem decode_take_encode {i : Instr} {k : Nat} (h : i.wellFormed = true) (hk : k < (encode i).length) :
    decode ((encode i).take k) = .incomplete := by
  cases k with
  | zero => rfl
  | succ k =>
    have hlt : k < (i.scalar ++ i.vector).length := Nat.lt_of_succ_lt_succ hk
    refine decode_short (Instr.decodeHeader_header h) ?_
    rw [← i.operands_length, List.length_take]
    exact Nat.lt_of_le_of_lt (Nat.min_le_left _ _) hlt

/-- The counts that 30_encoding.md R49 does not allow: CFGU takes 1, CFGM and SET any, the others 0. -/
theorem Opcode.countLegal_eq_false {op : Opcode} {n : Nat} :
    op.countLegal n = false ↔
      (op.code ≠ 0x02 ∧ op.code ≠ 0x03 ∧ op.code ≠ 0x05 ∧ n ≠ 0) ∨ (op.code = 0x02 ∧ n ≠ 1) := by
  cases op <;> simp [Opcode.countLegal, Opcode.code]

/-- A header beat is refused where a reserved bit is set, or where its opcode is reserved or has no such count. -/
theorem decodeHeader_error {h : Word} :
    (∃ why, decodeHeader h = .error why) ↔
      headerZero h ≠ 0 ∨ ∀ op, Opcode.ofCode (headerOp h) = some op → op.countLegal (headerCount h) = false := by
  unfold decodeHeader
  split
  · simp [*]
  · cases Opcode.ofCode (headerOp h) with
    | none => simp
    | some op => cases hc : op.countLegal (headerCount h) <;> simp_all

/-- The three cases of 30_encoding.md R51 by the fields of the header beat. -/
theorem decodeHeader_error_iff {h : Word} :
    (∃ why, decodeHeader h = .error why) ↔
      (headerOp h = 0 ∨ 0x0A ≤ headerOp h) ∨ headerZero h ≠ 0 ∨
        (headerOp h ≠ 0x02 ∧ headerOp h ≠ 0x03 ∧ headerOp h ≠ 0x05 ∧ headerCount h ≠ 0) ∨
        (headerOp h = 0x02 ∧ headerCount h ≠ 1) := by
  rw [decodeHeader_error]
  cases hop : Opcode.ofCode (headerOp h) with
  | none =>
    have hres := Opcode.ofCode_eq_none.1 hop
    simp [hres]
  | some op =>
    have hleg : ¬ (headerOp h = 0 ∨ 0x0A ≤ headerOp h) := fun hres =>
      Option.some_ne_none op (hop.symm.trans (Opcode.ofCode_eq_none.2 hres))
    rw [Opcode.code_of_ofCode hop] at hleg ⊢
    simp [hleg, ← Opcode.countLegal_eq_false]

end Sys2Proof
end

section
/-! PROOF. The family 30_encoding.md, the step: what a core between commands, and one that is stuck at a port, does with
the beats before it. How the host takes a response stands apart from what the turn does (`State.deliver`), so each
statement is one lemma for the turn and one for the host. -/

namespace Sys2Proof.Machine

/-! ## What the host takes of a response -/

theorem State.emit_of_rspRoom_none {s : State} (hr : s.rspRoom = none) (t : State) : s.emit t = t := by
  simp [State.emit, hr]

/-- Of the beats a turn has added, the first `k` are sent and the others are still to be sent (30_encoding.md R46). -/
theorem State.emit_of_rspRoom_some {s t : State} {k : Nat} {beats : List Word} (hr : s.rspRoom = some k)
    (hb : t.rsp = s.rsp ++ beats) :
    s.emit t = { t with rsp := s.rsp ++ beats.take k, unsent := beats.drop k, rspRoom := some (k - beats.length) } := by
  simp [State.emit, hr, State.holdBack, hb]

theorem State.deliver_of_rspRoom_none {s : State} (hr : s.rspRoom = none) (o : Host.Outcome State Fault Refusal) :
    s.deliver o = o := by
  cases o with
  | next t => exact congrArg Host.Outcome.next (State.emit_of_rspRoom_none hr t)
  | fault => rfl
  | refused => rfl

theorem State.deliver_of_rspRoom_some {s t : State} {k : Nat} {beats : List Word} (hr : s.rspRoom = some k)
    (hb : t.rsp = s.rsp ++ beats) :
    s.deliver (.next t) =
      .next { t with rsp := s.rsp ++ beats.take k, unsent := beats.drop k, rspRoom := some (k - beats.length) } :=
  congrArg Host.Outcome.next (State.emit_of_rspRoom_some hr hb)

/-! ## What a turn does with the beats on the command port -/

theorem runFrame_of_frame {s : State} {i : Instr} {rest : List Word} (h : decode s.cmd = .frame i rest) :
    runFrame s = exec i (s.withCmd rest) := by
  simp [runFrame, State.fetch, h]

theorem runFrame_of_illegal {s : State} {why : Reject} {rest : List Word} (h : decode s.cmd = .illegal why rest) :
    runFrame s = .next { s with cmd := rest, fault := 0x80#8, rsp := s.rsp ++ [0x8000000000000000#64] } := by
  simp only [runFrame, State.fetch, h]
  rfl

theorem runFrame_of_incomplete {s : State} (h : decode s.cmd = .incomplete) :
    runFrame s = .fault .waitingForBeat := by
  simp [runFrame, State.fetch, h]

theorem runHeld_of_answers {s : State} {k : Held} (h : s.answers k = true) :
    runHeld k s = exec k.instr (s.withHeld none) := if_pos h

theorem runHeld_of_silent {s : State} {k : Held} (h : s.answers k = false) : runHeld k s = .fault k.stop :=
  if_neg (Bool.eq_false_iff.1 h)

/-! ## The step without reset -/

theorem step_of_released {s : State} (h : s.rst = .released) : step s = runCommand s := by
  simp [step, h]

theorem step_of_idle {s : State} (h : s.Idle) : step s = s.deliver (runFrame s) := by
  obtain ⟨-, hrst, -, -⟩ := id h
  rw [step_of_released hrst, runCommand_of_idle h]

theorem step_of_running {s : State} (h : s.Running) : step s = runFrame s := by
  obtain ⟨hidle, hroom⟩ := h
  rw [step_of_idle hidle, State.deliver_of_rspRoom_none hroom]

theorem step_of_held {s : State} {k : Held} (hf : s.fault = 0x00#8) (hrst : s.rst = .released) (hu : s.unsent = [])
    (hh : s.held = some k) : step s = s.deliver (runHeld k s) := by
  rw [step_of_released hrst, runCommand_of_held hf hu hh]

theorem step_of_unsent {s : State} (hrst : s.rst = .released) (hu : s.unsent ≠ []) (hroom : s.rspRoom ≠ some 0) :
    step s = .next (s.emit s.send) := by
  rw [step_of_released hrst, runCommand, if_pos hu, if_neg hroom]

theorem step_of_unsent_of_silent {s : State} (hrst : s.rst = .released) (hu : s.unsent ≠ [])
    (hroom : s.rspRoom = some 0) : step s = .fault .waitingForResponse := by
  rw [step_of_released hrst, runCommand, if_pos hu, if_pos hroom]

/-! ## A core between commands -/

/-- Settles O4: the cases of the header's fields, and the step of a core that meets an illegal header. -/
theorem illegalHeaderRaisesIllegalCommand : Obligations.IllegalHeaderRaisesIllegalCommand := by
  intro s h rest hs hcmd
  refine ⟨?_, fun why e => ?_⟩
  · rw [hcmd, ← headerOp_eq, ← headerCount_eq, ← headerZero_eq, ← decodeHeader_error_iff]
    simp only [decode_eq_illegal, and_true]
  · rw [step_of_running hs, runFrame_of_illegal e]

/-- Settles O5: a running core takes the frame, and the host takes the whole response. -/
theorem stepRunsDecodedCommand : Obligations.StepRunsDecodedCommand := by
  intro s i rest hs e
  rw [step_of_running hs, runFrame_of_frame e]
  rfl

/-- Settles O6: the turn is the same whatever the host takes, and only its response is held back. -/
theorem silentHostHoldsTheResponse : Obligations.SilentHostHoldsTheResponse := by
  intro s k hs hroom
  refine ⟨fun i rest e => ?_, fun why rest e => ?_⟩
  · have hstep : step s = s.deliver (exec i { s with cmd := rest }) := by
      rw [step_of_idle hs, runFrame_of_frame e]
      rfl
    refine ⟨fun t beats ht hb => ?_, fun f hf => ?_, fun r hr => ?_⟩
    · rw [hstep, ht, State.deliver_of_rspRoom_some hroom hb]
    · rw [hstep, hf]
      rfl
    · rw [hstep, hr]
      rfl
  · rw [step_of_idle hs, runFrame_of_illegal e, State.deliver_of_rspRoom_some hroom rfl]
    rfl

/-- Settles O8: a proper part of a frame decodes to no frame and to no illegal header. -/
theorem incompleteFrameWaits : Obligations.IncompleteFrameWaits := by
  intro s i k hs hwf hk hcmd
  rw [step_of_idle hs, runFrame_of_incomplete (hcmd ▸ decode_take_encode hwf hk)]
  rfl

/-! ## A core that is stuck at a port -/

/-- Settles O9: each stuck command asks its own port. -/
theorem silentPortStopsTheCore : Obligations.SilentPortStopsTheCore := by
  refine ⟨fun s => step_of_unsent_of_silent, fun s hf hrst hu => ?_⟩
  have hstop : ∀ k : Held, s.held = some k → s.answers k = false → step s = .fault k.stop := fun k hh ha => by
    rw [step_of_held hf hrst hu hh, runHeld_of_silent ha]
    rfl
  exact ⟨fun hh hr => hh.elim (hstop .ldu · hr) (hstop .ldm · hr), hstop .dump⟩

/-- Settles O11: a response that was still to be sent is sent as far as the host takes it; a stuck command whose port
answers runs as one that is taken from the command port. -/
theorem stuckCoreGoesOn : Obligations.StuckCoreGoesOn := by
  refine ⟨fun s hrst hu => ⟨fun hroom => ?_, fun k hroom hk => ?_⟩, fun s h i hf hrst hu hh hport => ?_⟩
  · rw [step_of_unsent hrst hu (by simp [hroom]), State.emit_of_rspRoom_none hroom]
    rfl
  · rw [step_of_unsent hrst hu (by simp [hroom, hk]), State.emit_of_rspRoom_some hroom s.send_rsp]
    rfl
  · have hgo : h.instr = i ∧ s.answers h = true := by
      rcases hport with ⟨rfl, rfl, hr⟩ | ⟨rfl, rfl, hr⟩ | ⟨rfl, rfl, hr⟩ <;> exact ⟨rfl, hr⟩
    obtain ⟨rfl, ha⟩ := hgo
    have hstep : step s = s.deliver (exec h.instr { s with held := none }) := by
      rw [step_of_held hf hrst hu hh, runHeld_of_answers ha]
      rfl
    refine ⟨fun hroom => ?_, fun k t beats hroom ht hb => ?_⟩
    · rw [hstep, State.deliver_of_rspRoom_none hroom]
    · rw [hstep, ht, State.deliver_of_rspRoom_some hroom hb]

/-! ## A command under the invariant -/

/-- SET answers a next state under the invariant: a record in range lies in the storage (41_address_generation.md
R86). -/
theorem execSet_total {s : State} (h : s.Inv) (n : Word) (vs : List Word) : ∃ t, execSet n vs s = .next t := by
  obtain ⟨-, -, hfw, hmem, hcont⟩ := h
  unfold execSet
  split_ifs with hv hn hr hw
  · exact ⟨_, rfl⟩
  · exact ⟨_, rfl⟩
  · obtain ⟨hnf, -, -, hrb, -, -⟩ := hcont (by simpa using hv)
    have hlen : s.widths.length = s.nf.toNat := State.widths_length (hfw ▸ hnf)
    obtain ⟨m, e, -⟩ := State.writeRecord_spec hmem ((not_not.1 hn).trans hlen.symm) hw hrb hr
    simp [e]
  · obtain ⟨-, -, hw', -⟩ := hcont (by simpa using hv)
    exact absurd hw' hw
  · exact ⟨_, rfl⟩

/-- GET answers a next state under the invariant. -/
theorem execGet_total {s : State} (h : s.Inv) (n : Word) : ∃ t, execGet n s = .next t := by
  obtain ⟨-, -, -, -, hcont⟩ := h
  unfold execGet
  split_ifs with hv hr hw
  · exact ⟨_, rfl⟩
  · obtain ⟨-, -, -, hrb, -, -⟩ := hcont (by simpa using hv)
    obtain ⟨qs, e, -⟩ := State.readRecord_spec hw hrb hr
    simp [e]
  · obtain ⟨-, -, hw', -⟩ := hcont (by simpa using hv)
    exact absurd hw' hw
  · exact ⟨_, rfl⟩

/-- A test answers a next state where both of its branches do. -/
theorem exists_next_ite {p : Prop} [Decidable p] {a b : Host.Outcome State Fault Refusal} (ha : ∃ t, a = .next t)
    (hb : ∃ t, b = .next t) : ∃ t, (if p then a else b) = .next t := by
  split
  · exact ha
  · exact hb

theorem execDump_total (s : State) : ∃ t, execDump s = .next t := by
  refine exists_next_ite ⟨_, rfl⟩ (exists_next_ite ⟨_, rfl⟩ ?_)
  split <;> exact ⟨_, rfl⟩

/-- Every command answers a next state under the invariant. -/
theorem exec_total {s : State} (h : s.Inv) (i : Instr) : ∃ t, exec i s = .next t := by
  cases i with
  | bitw | cfgu | cfgm => exact ⟨_, rfl⟩
  | set n vs => exact execSet_total h n vs
  | get n => exact execGet_total h n
  | dump => exact execDump_total s
  | cap | ldu | ldm => exact exists_next_ite ⟨_, rfl⟩ ⟨_, rfl⟩

/-- Settles O19: every command answers a next state under the invariant, and holds nothing back where its ports
answer. -/
theorem wholeFrameAlwaysCompletes : Obligations.WholeFrameAlwaysCompletes := by
  intro s i rest hinv hs e
  obtain ⟨t, ht⟩ := exec_total (State.inv_withCmd hinv rest) i
  refine ⟨s.emit t, by rw [step_of_idle hs, runFrame_of_frame e, ht]; rfl, fun hroom hports => ?_⟩
  obtain ⟨-, -, hu, hh⟩ := hs
  obtain ⟨hunsent, ⟨-, hheld⟩ | ⟨hsilent, -⟩⟩ := exec_held ht
  · rw [State.emit_of_rspRoom_none hroom]
    exact ⟨hunsent.trans hu, hheld.trans hh⟩
  · exact absurd hports hsilent

/-! ## The response of a command -/

/-- A response header as a number (30_encoding.md R53, R55). -/
theorem rspHeader_toNat (st : Status) {n : Nat} (hn : n ≤ 255) :
    (rspHeader st n).toNat = st.code.toNat * 2 ^ 56 + n * 2 ^ 48 :=
  headerWord_toNat st.code.isLt (Nat.lt_succ_of_le hn)

/-- The turn from `s` to `t` has sent one response frame (30_encoding.md R54). -/
def State.SentOneFrame (s t : State) : Prop :=
  ∃ (st : Status) (qs : List Word), qs.length ≤ 255 ∧ t.rsp = s.rsp ++ rspHeader st qs.length :: qs

theorem State.PlainEnd.sentOneFrame {s t : State} {i : Instr} (e : s.PlainEnd i t) (hp : s.PortsAnswer i) :
    s.SentOneFrame t := by
  cases e with
  | raised _ st => exact ⟨st, [], Nat.zero_le _, rfl⟩
  | answered _ qs _ _ hq => exact ⟨.ok, qs, hq, rfl⟩
  | stored => exact ⟨.ok, [], Nat.zero_le _, rfl⟩
  | dumped _ st => exact ⟨st, [], Nat.zero_le _, rfl⟩
  | waits hv hr =>
    obtain ⟨-, hsnk⟩ := hp
    exact absurd (hsnk rfl hv) (Bool.eq_false_iff.1 hr)

theorem State.ConstructorEnd.sentOneFrame {s t : State} {i : Instr} (e : s.ConstructorEnd i t)
    (hp : s.PortsAnswer i) : s.SentOneFrame t := by
  cases e with
  | waits _ _ hsilent => exact absurd hp hsilent
  | failed _ st => exact ⟨st, [], Nat.zero_le _, rfl⟩
  | built => exact ⟨.ok, [], Nat.zero_le _, rfl⟩

theorem exec_sentOneFrame {i : Instr} {s t : State} (h : exec i s = .next t) (hp : s.PortsAnswer i) :
    s.SentOneFrame t := by
  cases hc : isConstructor i with
  | false => exact (exec_plainEnd hc h).sentOneFrame hp
  | true => exact (exec_constructorEnd hc h).sentOneFrame hp

theorem State.hold_rsp (s : State) (k : Held) : (s.hold k).rsp = s.rsp := by cases k <;> rfl

theorem State.hold_held (s : State) (k : Held) : (s.hold k).held = some k := by cases k <;> rfl

/-- Settles O20: a command ends with one response frame, or is held at a silent port before it answers. -/
theorem oneResponseFramePerCommand : Obligations.OneResponseFramePerCommand := by
  intro i s t h
  refine ⟨fun hp => ?_, fun hsilent => ?_⟩
  · obtain ⟨st, qs, hq, hrsp⟩ := exec_sentOneFrame h hp
    exact ⟨st, qs, hq, hrsp, rspHeader_toNat st hq⟩
  · obtain ⟨-, ⟨hp, -⟩ | ⟨-, k, -, rfl, -⟩⟩ := exec_held h
    · exact absurd hp hsilent
    · exact ⟨s.hold_rsp k, by simp [s.hold_held k]⟩

end Sys2Proof.Machine
end

section
/-! PROOF. The family 40_combinators.md: MASK, SHL, SHR and EXTRACT as numbers, the laws of DEPOSIT, EXTRACT, SPLIT
and JOIN, and BITW. The numbers are those of a mask and of the two shifts; the laws compare two words bit by bit. -/

namespace Sys2Proof.Machine

/-! ## The combinators as numbers -/

theorem mask_toNat {w : Nat} (hw : w ≤ 64) : (mask w).toNat = 2 ^ w - 1 := by
  have hle : 2 ^ w ≤ 2 ^ 64 := Nat.pow_le_pow_right Nat.two_pos hw
  have hpos : 0 < 2 ^ w := Nat.two_pow_pos w
  rw [mask, if_pos hw, BitVec.toNat_ofNat, Nat.mod_eq_of_lt (by omega)]

theorem shl_toNat (x : Word) {n : Nat} (hn : n < 64) : (shl x n).toNat = x.toNat * 2 ^ n % 2 ^ 64 := by
  rw [shl, if_pos hn, BitVec.toNat_shiftLeft, Nat.shiftLeft_eq]

theorem shr_toNat (x : Word) {n : Nat} (hn : n < 64) : (shr x n).toNat = x.toNat / 2 ^ n := by
  rw [shr, if_pos hn, BitVec.toNat_ushiftRight, Nat.shiftRight_eq_div_pow]

/-- Settles O25: each combinator as a number, on the domain where it is defined. -/
theorem maskAndShiftValues : Obligations.MaskAndShiftValues :=
  ⟨fun _ hw => mask_toNat hw, fun x _ hn => shl_toNat x (Nat.lt_succ_of_le hn),
    fun x _ hn => shr_toNat x (Nat.lt_succ_of_le hn)⟩

/-- Cutting a word to the width `w` is the remainder by `2^w`. -/
theorem and_mask_toNat (x : Word) {w : Nat} (hw : w ≤ 64) : (x &&& mask w).toNat = x.toNat % 2 ^ w := by
  rw [BitVec.toNat_and, mask_toNat hw, Nat.and_two_pow_sub_one_eq_mod]

/-- Settles O26: the shift divides by `2^r`, the mask takes the remainder by `2^w`. -/
theorem extractIsTheBitField : Obligations.ExtractIsTheBitField := by
  intro x r w hr hw _
  calc (extract x r w).toNat
      = (shr x r).toNat % 2 ^ w := and_mask_toNat (shr x r) hw
    _ = x.toNat / 2 ^ r % 2 ^ w := by rw [shr_toNat x (Nat.lt_succ_of_le hr)]

/-! ## DEPOSIT and EXTRACT -/

/-- The deposited field reads back as the value cut to the width (40_combinators.md R72 (a)). -/
theorem extract_deposit_same (x v : Word) {r w : Nat} (hr : r < 64) (hrw : r + w ≤ 64) :
    extract (deposit x r w v) r w = v &&& mask w := by
  have hw : w ≤ 64 := by omega
  refine BitVec.eq_of_getLsbD_eq fun j _ => ?_
  rw [extract_getLsbD _ hr hw, deposit_getLsbD _ _ hr hrw, BitVec.getLsbD_and, mask_getLsbD hw]
  by_cases hj : j < w
  · rw [if_pos (by omega), Nat.add_sub_cancel_left]
  · simp [hj]

/-- A field that shares no bit with the deposited one is undisturbed (40_combinators.md R72 (b)). -/
theorem extract_deposit_disjoint (x v : Word) {r w r' w' : Nat} (hr : r < 64) (hrw : r + w ≤ 64) (hr' : r' < 64)
    (hw' : w' ≤ 64) (hdis : ∀ b, ¬(r ≤ b ∧ b < r + w ∧ r' ≤ b ∧ b < r' + w')) :
    extract (deposit x r w v) r' w' = extract x r' w' := by
  refine BitVec.eq_of_getLsbD_eq fun j _ => ?_
  rw [extract_getLsbD _ hr' hw', extract_getLsbD _ hr' hw', deposit_getLsbD _ _ hr hrw]
  by_cases hj : j < w'
  · have hout := hdis (r' + j)
    rw [if_neg (by omega)]
  · simp [hj]

/-- A second value deposited at one place leaves nothing of the first (40_combinators.md R72 (c)). -/
theorem deposit_deposit_same (x v1 v2 : Word) {r w : Nat} (hr : r < 64) (hrw : r + w ≤ 64) :
    deposit (deposit x r w v1) r w v2 = deposit x r w v2 := by
  refine BitVec.eq_of_getLsbD_eq fun j _ => ?_
  simp only [deposit_getLsbD _ _ hr hrw]
  by_cases hj : r ≤ j ∧ j < r + w
  · rw [if_pos hj, if_pos hj]
  · rw [if_neg hj, if_neg hj, if_neg hj]

/-- Settles O27: bit by bit, by whether the bit lies in the deposited field. -/
theorem depositExtractLaws : Obligations.DepositExtractLaws := by
  intro x r w hr _ hrw
  have hr64 : r < 64 := Nat.lt_succ_of_le hr
  exact ⟨fun v => extract_deposit_same x v hr64 hrw,
    fun v _ _ hr' hw' _ hdis => extract_deposit_disjoint x v hr64 hrw (Nat.lt_succ_of_le hr') hw' hdis,
    fun v1 v2 => deposit_deposit_same x v1 v2 hr64 hrw⟩

/-! ## SPLIT and JOIN -/

/-- Settles O28: a bit below the split point comes from the low part, any other from the high part. -/
theorem joinRebuildsTheSplitValue : Obligations.JoinRebuildsTheSplitValue := by
  intro v lo _ hlo
  have hlo64 : lo < 64 := Nat.lt_succ_of_le hlo
  refine BitVec.eq_of_getLsbD_eq fun j hj => ?_
  rw [join_getLsbD _ _ hlo64, splitLo_getLsbD _ hlo64.le, splitHi_getLsbD _ hlo64]
  by_cases hlow : j < lo
  · simp [hlow]
  · simp [hlow, hj, Nat.add_sub_cancel' (Nat.not_lt.1 hlow)]

/-! ## BITW -/

/-- BITWIDTH is the least number of bits that holds the word (40_combinators.md R70). -/
theorem bitWidth_spec (m : Word) : m.toNat < 2 ^ bitWidth m ∧ ∀ j, m.toNat < 2 ^ j → bitWidth m ≤ j :=
  bitWidthLoop_spec 64 m m.isLt

/-- BITW answers OK with the width of its operand and changes nothing else, whatever the state
(40_combinators.md R71). -/
theorem exec_bitw (a : Word) (s : State) :
    exec (.bitw a) s = .next (s.respond .ok [BitVec.ofNat 64 (bitWidth a)]) := rfl

/-- The header of OK with one result beat (30_encoding.md R55). -/
theorem rspHeader_ok_one : rspHeader .ok 1 = 0x0001000000000000#64 := by decide

/-- Settles O29: the answer is BITWIDTH of the operand, which is the least width and at most 64. -/
theorem bitwReturnsTheLeastWidth : Obligations.BitwReturnsTheLeastWidth := by
  intro a s
  refine ⟨bitWidth a, bitWidth_le a, ?_, bitWidth_spec a⟩
  rw [exec_bitw, State.respond, List.length_singleton, rspHeader_ok_one]

end Sys2Proof.Machine
end

section
/-! PROOF. The family 41_address_generation.md: the cursor stepped by ADVANCE keeps to the bit position of the closed
form, and the fields of successive records lie one behind the other, so that no two of them share a bit. -/

namespace Sys2Proof.Machine

/-! ## The cursor -/

/-- A bit offset is put together again from its word address and its offset in the word (41_address_generation.md
R82). -/
theorem wordOf_bitOf (b : Nat) : 64 * wordOf b + bitOf b = b := Nat.div_add_mod b 64

theorem bitOf_lt (b : Nat) : bitOf b < 64 := Nat.mod_lt b (by decide)

/-- Stepping over fields moves the cursor by the sum of their widths (41_address_generation.md R83). -/
theorem cursorAt_offset (ws : List Nat) (p r : Nat) :
    64 * (cursorAt p r ws).1 + (cursorAt p r ws).2 = 64 * p + r + ws.sum := by
  induction ws generalizing p r with
  | nil => simp [cursorAt]
  | cons w ws ih => rw [cursorAt, ih, advance_offset, List.sum_cons, Nat.add_assoc]

/-- The cursor's offset stays inside a word (41_address_generation.md R83). -/
theorem cursorAt_bit {ws : List Nat} (hw : ∀ w ∈ ws, w ≤ 64) (p : Nat) {r : Nat} (hr : r < 64) :
    (cursorAt p r ws).2 < 64 := by
  induction ws generalizing p r with
  | nil => exact hr
  | cons w ws ih =>
    obtain ⟨hw0, hws⟩ := List.forall_mem_cons.1 hw
    exact ih hws _ (advance_bit p hr hw0)

/-- Settles O30: the cursor begins at the record's first bit, and each ADVANCE moves it by one width of the closed
form's sum. -/
theorem cursorAgreesWithTheOffset : Obligations.CursorAgreesWithTheOffset := by
  intro widths rb n i hw _
  have hpre : ∀ w ∈ widths.take i, w ≤ 64 := fun w h => hw w (List.mem_of_mem_take h)
  refine ⟨?_, Nat.le_of_lt_succ (cursorAt_bit hpre _ (bitOf_lt _))⟩
  rw [cursorAt_offset, wordOf_bitOf, off]

/-! ## The ranges of the fields -/

/-- A field ends where the next one of its record begins (41_address_generation.md R80). -/
theorem off_succ (widths : List Nat) (rb n i : Nat) (hi : i < widths.length) :
    off widths rb n (i + 1) = off widths rb n i + widths[i] := by
  rw [off, off, List.sum_take_succ widths i hi, Nat.add_assoc]

/-- The fields of a record lie in the order of their indices. -/
theorem off_mono (widths : List Nat) (rb n : Nat) {i j : Nat} (hij : i ≤ j) :
    off widths rb n i ≤ off widths rb n j :=
  Nat.add_le_add_left (List.monotone_sum_take widths hij) _

/-- No field of a record begins behind the start of a later record: the widths passed sum to at most `RB`
(41_address_generation.md R80). -/
theorem off_le_of_record_lt (widths : List Nat) {n n' : Nat} (hn : n < n') (i j : Nat) :
    off widths widths.sum n i ≤ off widths widths.sum n' j := by
  have hsum : (widths.take i).sum ≤ widths.sum := (List.take_sublist i widths).sum_le_sum fun _ _ => Nat.zero_le _
  calc off widths widths.sum n i
      ≤ n * widths.sum + widths.sum := Nat.add_le_add_left hsum _
    _ = (n + 1) * widths.sum := (Nat.succ_mul _ _).symm
    _ ≤ n' * widths.sum := Nat.mul_le_mul_right _ hn
    _ ≤ off widths widths.sum n' j := Nat.le_add_right _ _

/-- A field ends before any field that comes after it, in its record or in a later one. -/
theorem field_end_le_off (widths : List Nat) {n n' i i' : Nat} (hi : i < widths.length)
    (hlt : n < n' ∨ n = n' ∧ i < i') :
    off widths widths.sum n i + widths[i] ≤ off widths widths.sum n' i' := by
  rw [← off_succ widths _ n i hi]
  obtain hn | ⟨rfl, hii⟩ := hlt
  · exact off_le_of_record_lt widths hn (i + 1) i'
  · exact off_mono widths _ n hii

/-- Settles O31: of two different fields one comes first, and it ends before the other begins. -/
theorem fieldRangesAreDisjoint : Obligations.FieldRangesAreDisjoint := by
  intro widths n n' i i' hi hi' hne b ⟨hlo, hhi, hlo', hhi'⟩
  have hord : (n < n' ∨ n = n' ∧ i < i') ∨ (n' < n ∨ n' = n ∧ i' < i) := by
    rw [Ne, Prod.mk.injEq] at hne
    omega
  obtain hlt | hlt := hord
  · have hend := field_end_le_off widths hi hlt
    omega
  · have hend := field_end_le_off widths hi' hlt
    omega

end Sys2Proof.Machine
end

section
/-! PROOF. The family 42_configuration.md: what CFGU and CFGM leave behind, by whether the request fits the parameters,
and the capacity that CAP answers. -/

namespace Sys2Proof.Machine

/-! ## The words of storage that a construction asks for -/

/-- The ceiling of 42_configuration.md R91 written out. -/
theorem storageWords_eq (capacityHint rb : Nat) :
    storageWords capacityHint rb = max 1 ((capacityHint * rb + 63) / 64) := rfl

/-- The words asked for hold as many records as the capacity hint says (42_configuration.md R96). -/
theorem mul_le_storageWords (capacityHint rb : Nat) : capacityHint * rb ≤ 64 * storageWords capacityHint rb := by
  rw [storageWords_eq]
  omega

/-! ## Construction -/

/-- A construction that fits installs a container of blank storage. -/
theorem construct_of_fits {mode : Mode} {cap : Word} {hints : List Word} {s : State}
    (hl : hints.length ≤ s.cfg.nfMax) (hn : storageWords cap.toNat (hints.map bitWidth).sum ≤ s.cfg.nwMax) :
    construct mode cap hints s =
      (s.install mode (hints.map bitWidth) (storageWords cap.toNat (hints.map bitWidth).sum) []).respond .ok [] := by
  unfold construct
  dsimp only
  rw [if_neg hl.not_gt, if_neg hn.not_gt]

/-- A construction with too many fields or too many words ends with RESOURCE_ERROR. -/
theorem construct_of_exceeds {mode : Mode} {cap : Word} {hints : List Word} {s : State}
    (h : hints.length > s.cfg.nfMax ∨ storageWords cap.toNat (hints.map bitWidth).sum > s.cfg.nwMax) :
    construct mode cap hints s = s.failConstructor .resourceError := by
  unfold construct
  dsimp only
  by_cases hl : hints.length > s.cfg.nfMax
  · rw [if_pos hl]
  · rw [if_neg hl, if_pos (h.resolve_left hl)]

theorem bitWidth_le_of_mem_map {hints : List Word} {w : Nat} (h : w ∈ hints.map bitWidth) : w ≤ 64 := by
  obtain ⟨x, -, rfl⟩ := List.mem_map.1 h
  exact bitWidth_le x

/-- State `t` is `s` with a container of blank storage in place of its own, and OK answered (42_configuration.md R90). -/
structure State.Built (s t : State) (mode : Mode) (widths : List Nat) (nw : Nat) : Prop where
  valid : t.valid = true
  mode_eq : t.mode = mode
  nf : t.nf.toNat = widths.length
  widths_eq : t.widths = widths
  rb : t.rb.toNat = widths.sum
  nw_eq : t.nw.toNat = nw
  blank : ∀ p < t.nw.toNat, memRead t.nw.toNat t.mem p = some 0#64
  frame : t = { s with valid := t.valid, mode := t.mode, nf := t.nf, fw := t.fw, rb := t.rb, nw := t.nw,
                       mem := t.mem, rsp := s.rsp ++ [0x0000000000000000#64] }

/-- Widths and a word count that fit the registers are what the registers show. -/
theorem State.built_install (s : State) (mode : Mode) {widths : List Nat} {nw : Nat} (hl : widths.length ≤ 255)
    (hw : ∀ w ∈ widths, w ≤ 64) (hn : nw < 2 ^ 58) :
    s.Built ((s.install mode widths nw []).respond .ok []) mode widths nw where
  valid := rfl
  mode_eq := rfl
  nf := Nat.mod_eq_of_lt (by omega)
  widths_eq := State.install_widths s mode widths nw [] hl hw
  rb := Nat.mod_eq_of_lt (by have hsum := sum_le_of_le hw; omega)
  nw_eq := Nat.mod_eq_of_lt hn
  blank p hp := memRead_eq_some.2 ⟨hp, rfl⟩
  frame := rfl

/-- A construction that fits legal parameters builds the container asked for. -/
theorem State.built_construct {s : State} (hc : s.cfg.Legal) (mode : Mode) {cap : Word} {hints : List Word}
    (hl : hints.length ≤ s.cfg.nfMax) (hn : storageWords cap.toNat (hints.map bitWidth).sum ≤ s.cfg.nwMax) :
    s.Built (construct mode cap hints s) mode (hints.map bitWidth)
      (storageWords cap.toNat (hints.map bitWidth).sum) := by
  obtain ⟨-, hnf, -, hnw⟩ := hc
  rw [construct_of_fits hl hn]
  exact s.built_install mode (by rw [List.length_map]; omega) (fun _ => bitWidth_le_of_mem_map) (by omega)

/-- State `t` is `s` without a container and with RESOURCE_ERROR answered: what a failed construction leaves as it was
(42_configuration.md R97). -/
def State.OutOfResources (s t : State) : Prop :=
  t.valid = false ∧ t.rsp = s.rsp ++ [0x0300000000000000#64] ∧ t.fault = s.fault ∧ t.cfg = s.cfg ∧ t.cmd = s.cmd ∧
    t.rspRoom = s.rspRoom ∧ t.unsent = s.unsent ∧ t.held = s.held ∧ t.src = s.src ∧ t.snk = s.snk ∧ t.rst = s.rst

theorem State.outOfResources_failConstructor (s : State) : s.OutOfResources (s.failConstructor .resourceError) :=
  ⟨rfl, rfl, rfl, rfl, rfl, rfl, rfl, rfl, rfl, rfl, rfl⟩

theorem exec_cfgu (cap hint : Word) (s : State) :
    exec (.cfgu cap hint) s = .next (construct .uniform cap [hint] s) := rfl

theorem exec_cfgm (cap : Word) (hints : List Word) (s : State) :
    exec (.cfgm cap hints) s = .next (construct .multi cap hints s) := rfl

/-- Settles O33: the request fits and the container is installed, or a bound is exceeded and there is none. -/
theorem cfgmBuildsAMultiFieldContainer : Obligations.CfgmBuildsAMultiFieldContainer := by
  intro cap hints s hc
  refine ⟨fun hl hn => ⟨_, exec_cfgm cap hints s, ?_⟩, fun h => ⟨_, exec_cfgm cap hints s, ?_⟩⟩
  · have hb := State.built_construct hc .multi hl hn
    exact ⟨hb.valid, hb.mode_eq, by rw [hb.nf, List.length_map], hb.widths_eq, hb.rb, hb.nw_eq, hb.blank, hb.frame⟩
  · rw [construct_of_exceeds h]
    exact s.outOfResources_failConstructor

/-- Settles O32: the one hint is always a legal number of fields, so the words asked for decide. -/
theorem cfguBuildsAUniformContainer : Obligations.CfguBuildsAUniformContainer := by
  intro cap hint s hc
  have hwords : storageWords cap.toNat ([hint].map bitWidth).sum = max 1 ((cap.toNat * bitWidth hint + 63) / 64) :=
    storageWords_eq _ _
  obtain ⟨hone, -⟩ := id hc
  refine ⟨fun hn => ⟨_, exec_cfgu cap hint s, ?_⟩, fun hn => ⟨_, exec_cfgu cap hint s, ?_⟩⟩
  · have hb := State.built_construct hc .uniform (hints := [hint]) hone (hwords.trans_le hn)
    exact ⟨hb.valid, hb.mode_eq, hb.nf, hb.widths_eq, hb.rb, hb.nw_eq.trans hwords, hb.blank, hb.frame⟩
  · rw [construct_of_exceeds (.inr (hn.trans_eq hwords.symm))]
    exact s.outOfResources_failConstructor

/-! ## Capacity -/

theorem capacity_of_rb_zero (nw : Nat) : capacity nw 0 = capUnbounded := if_pos rfl

theorem capacity_of_rb_ne_zero (nw : Nat) {rb : Nat} (h : rb ≠ 0) : capacity nw rb = nw * 64 / rb := if_neg h

/-- The capacity of as many words as `NW` can say is a result beat (42_configuration.md R95). -/
theorem capacity_lt {nw : Nat} (hn : nw < 2 ^ 58) (rb : Nat) : capacity nw rb < 2 ^ 64 := by
  by_cases h : rb = 0
  · rw [h, capacity_of_rb_zero]; decide
  · have hdiv := Nat.div_le_self (nw * 64) rb
    rw [capacity_of_rb_ne_zero nw h]
    omega

/-- Records of at least one bit are within the capacity exactly where their bits are within the words. -/
theorem le_capacity_iff {rb : Nat} (h : rb ≠ 0) (nw n : Nat) : n ≤ capacity nw rb ↔ n * rb ≤ 64 * nw := by
  rw [capacity_of_rb_ne_zero nw h, Nat.le_div_iff_mul_le (Nat.pos_of_ne_zero h), Nat.mul_comm nw]

/-- With a container CAP answers the capacity and changes nothing else. -/
theorem exec_cap_of_valid {s : State} (hv : s.valid = true) :
    exec .cap s =
      .next { s with rsp := s.rsp ++ [0x0001000000000000#64, BitVec.ofNat 64 (capacity s.nw.toNat s.rb.toNat)] } := by
  have hcap : exec .cap s = .next (s.respond .ok [BitVec.ofNat 64 (capacity s.nw.toNat s.rb.toNat)]) :=
    if_neg (by simp [hv])
  rw [hcap, State.respond, List.length_singleton, rspHeader_ok_one]

/-- Settles O34: record `n` is in range exactly where `n + 1` records are within the capacity. -/
theorem capReturnsTheExactBound : Obligations.CapReturnsTheExactBound := by
  intro s hv
  refine ⟨capacity s.nw.toNat s.rb.toNat, capacity_lt s.nw.isLt _, exec_cap_of_valid hv, fun h => ?_, fun h => ?_⟩
  · rw [h]; exact capacity_of_rb_zero _
  · exact ⟨capacity_of_rb_ne_zero _ h, fun n => (le_capacity_iff h s.nw.toNat (n + 1)).symm⟩

/-! ## The capacity of a container just built -/

/-- A construction that leaves a container has built the one asked for. -/
theorem State.built_of_construct_valid {s : State} (hc : s.cfg.Legal) {mode : Mode} {cap : Word} {hints : List Word}
    (hv : (construct mode cap hints s).valid = true) :
    s.Built (construct mode cap hints s) mode (hints.map bitWidth)
      (storageWords cap.toNat (hints.map bitWidth).sum) := by
  rcases construct_cases mode cap hints s with e | ⟨hl, hn, -⟩
  · rw [e] at hv; cases hv
  · exact State.built_construct hc mode hl hn

/-- The records that the capacity hint names fit the words of the container built for it. -/
theorem construct_hint_fits {s : State} (hc : s.cfg.Legal) {mode : Mode} {cap : Word} {hints : List Word}
    (hv : (construct mode cap hints s).valid = true) :
    cap.toNat * (construct mode cap hints s).rb.toNat ≤ 64 * (construct mode cap hints s).nw.toNat := by
  have hb := State.built_of_construct_valid hc hv
  rw [hb.rb, hb.nw_eq]
  exact mul_le_storageWords _ _

/-- As many records as fit the words are within the capacity; where `RB = 0` the sentinel is the largest word. -/
theorem toNat_le_capacity {cap : Word} {nw rb : Nat} (h : cap.toNat * rb ≤ 64 * nw) : cap.toNat ≤ capacity nw rb := by
  by_cases hrb : rb = 0
  · rw [hrb, capacity_of_rb_zero]
    exact Nat.le_pred_of_lt cap.isLt
  · exact (le_capacity_iff hrb nw _).2 h

/-- Settles O35: storage was sized for the hint, so its records fit, and CAP counts all that fit. -/
theorem freshCapacityCoversTheHint : Obligations.FreshCapacityCoversTheHint := by
  intro i cap s t hc hi e hv
  have hfit : cap.toNat * t.rb.toNat ≤ 64 * t.nw.toNat := by
    rcases hi with ⟨hint, rfl⟩ | ⟨hints, rfl⟩ <;> injection e with e <;> subst e <;> exact construct_hint_fits hc hv
  refine ⟨⟨_, ?_, exec_cap_of_valid hv⟩, fun n hn => ?_⟩
  · rw [BitVec.toNat_ofNat, Nat.mod_eq_of_lt (capacity_lt t.nw.isLt _)]
    exact toNat_le_capacity hfit
  · exact (Nat.mul_le_mul_right _ hn).trans hfit

end Sys2Proof.Machine
end

section
/-! PROOF. The family 43_field_access.md: the crossing write word by word, and SET and GET bit by bit. What SET leaves
in storage and what GET answers are each said once, as a predicate that fixes it; the statements about two commands
compare these. -/

namespace Sys2Proof.Machine

/-! ## The crossing write -/

theorem shl_zero (x : Word) : shl x 0 = x := BitVec.shiftLeft_zero x

/-- What the low part of a crossing value leaves of its word: the bits below the cursor (43_field_access.md R103). -/
theorem not_shl_mask {r : Nat} (hr : r < 64) : ~~~(shl (mask (64 - r)) r) = mask r := by
  refine BitVec.eq_of_getLsbD_eq fun j hj => ?_
  rw [BitVec.getLsbD_not, shl_getLsbD _ hr, mask_getLsbD (Nat.sub_le 64 r), mask_getLsbD hr.le]
  by_cases hlow : j < r
  · simp [hj, hlow]
  · have hhigh : j - r < 64 - r := by omega
    simp [hj, hlow, hhigh]

/-- The high part of a value cut to the width has no bit above its own width (43_field_access.md R103). -/
theorem shr_and_mask (v : Word) {w lo : Nat} (hw : w ≤ 64) (hlo : lo < 64) :
    shr (v &&& mask w) lo &&& mask (w - lo) = shr (v &&& mask w) lo := by
  refine BitVec.eq_of_getLsbD_eq fun j _ => ?_
  rw [BitVec.getLsbD_and, shr_getLsbD _ hlo, BitVec.getLsbD_and, mask_getLsbD hw, mask_getLsbD (by omega)]
  by_cases hj : j < w - lo
  · simp [hj]
  · have hout : ¬ lo + j < w := by omega
    simp [hout]

theorem deposit_splitLo_top (x t : Word) {r : Nat} (hr : r < 64) :
    deposit x r (64 - r) (splitLo t (64 - r)) = (x &&& mask r) ||| shl (t &&& mask (64 - r)) r := by
  rw [deposit, splitLo, not_shl_mask hr, BitVec.and_assoc, BitVec.and_self]

theorem deposit_splitHi_bottom (x v : Word) {w lo : Nat} (hw : w ≤ 64) (hlo : lo < 64) :
    deposit x 0 (w - lo) (splitHi (v &&& mask w) lo) = (x &&& ~~~(mask (w - lo))) ||| shr (v &&& mask w) lo := by
  rw [deposit, splitHi, shl_zero, shl_zero, shr_and_mask v hw hlo]

/-- The crossing write where both words are owned: a deposit into the first, then one into the second. -/
theorem writeX_of_owned {nw : Nat} {m m₁ : Memory} {p r w : Nat} {v : Word} (hp : p + 1 < nw)
    (h₁ : m.write p (deposit (m.read p) r (64 - r) (splitLo (v &&& mask w) (64 - r))) = m₁) :
    writeX nw m p r w v =
      some (m₁.write (p + 1) (deposit (m₁.read (p + 1)) 0 (w - (64 - r)) (splitHi (v &&& mask w) (64 - r)))) := by
  simp only [writeX, memRead, memWrite, if_pos hp, if_pos (Nat.lt_of_succ_lt hp), h₁]

/-- Settles O37: each of the two words is the deposit into the word that stood there before. -/
theorem crossingWriteWrittenOut : Obligations.CrossingWriteWrittenOut := by
  intro nw m p r w v hm hr hw hcross hp
  have hr64 : r < 64 := Nat.lt_succ_of_le hr
  have hlo : 64 - r < 64 := by omega
  have hm1 := Memory.wf_write p (deposit (m.read p) r (64 - r) (splitLo (v &&& mask w) (64 - r))) hm
  refine ⟨_, writeX_of_owned hp rfl, ?_, ?_, fun q hqp hqp1 => ?_⟩
  · rw [Memory.read_write_other _ hm1 (Nat.succ_ne_self p).symm, Memory.read_write_same _ _ hm,
      deposit_splitLo_top _ _ hr64]
  · rw [Memory.read_write_same _ _ hm1, Memory.read_write_other _ hm (Nat.succ_ne_self p),
      deposit_splitHi_bottom _ _ hw hlo]
  · rw [Memory.read_write_other _ hm1 hqp1, Memory.read_write_other _ hm hqp]

/-! ## The bits of a record -/

/-- The bits of a field lie in the field's record (41_address_generation.md R80). -/
theorem field_bit_in_record (widths : List Nat) (n : Nat) {i j : Nat} (hi : i < widths.length) (hj : j < widths[i]) :
    n * widths.sum ≤ off widths widths.sum n i + j ∧ off widths widths.sum n i + j < (n + 1) * widths.sum := by
  have hend : off widths widths.sum n i + widths[i] ≤ (n + 1) * widths.sum :=
    field_end_le_off widths hi (i' := 0) (.inl n.lt_succ_self)
  have hstart : n * widths.sum ≤ off widths widths.sum n i := Nat.le_add_right _ _
  omega

/-- Every bit of a run of fields belongs to one of them. -/
theorem exists_field_of_lt_sum {widths : List Nat} {d : Nat} (hd : d < widths.sum) :
    ∃ (i : Nat) (hi : i < widths.length) (j : Nat), j < widths[i] ∧ d = (widths.take i).sum + j := by
  induction widths generalizing d with
  | nil => simp at hd
  | cons w ws ih =>
    rw [List.sum_cons] at hd
    by_cases hw : d < w
    · exact ⟨0, by simp, d, hw, by simp⟩
    · obtain ⟨i, hi, j, hj, hdj⟩ := ih (d := d - w) (by omega)
      refine ⟨i + 1, Nat.succ_lt_succ hi, j, hj, ?_⟩
      rw [List.take_succ_cons, List.sum_cons]
      omega

/-- Every bit of a record belongs to a field: the record width is the sum of the widths (10_state.md R16). -/
theorem exists_field_of_record_bit {widths : List Nat} {n b : Nat} (hlo : n * widths.sum ≤ b)
    (hhi : b < (n + 1) * widths.sum) :
    ∃ (i : Nat) (hi : i < widths.length) (j : Nat), j < widths[i] ∧ b = off widths widths.sum n i + j := by
  rw [Nat.succ_mul] at hhi
  obtain ⟨i, hi, j, hj, hd⟩ := exists_field_of_lt_sum (widths := widths) (d := b - n * widths.sum) (by omega)
  refine ⟨i, hi, j, hj, ?_⟩
  rw [off]
  omega

/-- A bit of one record lies outside every other. -/
theorem record_bit_outside_other {rb n n' b : Nat} (hne : n ≠ n') (hlo : n * rb ≤ b) (hhi : b < (n + 1) * rb) :
    b < n' * rb ∨ (n' + 1) * rb ≤ b := by
  rcases Nat.lt_or_gt_of_ne hne with hlt | hgt
  · exact .inl (hhi.trans_le (Nat.mul_le_mul_right rb hlt))
  · exact .inr ((Nat.mul_le_mul_right rb hgt).trans hlo)

/-! ## What SET leaves in storage -/

/-- The fields of a container, as the invariant gives them: as many widths as `NF` says, each of them legal, and `RB`
their sum (10_state.md R14 to R16, R19). -/
theorem State.Inv.fields {s : State} (h : s.Inv) (hv : s.valid = true) :
    s.widths.length = s.nf.toNat ∧ s.WidthsLegal ∧ s.rb.toNat = s.widths.sum := by
  obtain ⟨-, -, hfw, -, hcont⟩ := h
  obtain ⟨hnf, -, hw, hrb, -, -⟩ := hcont hv
  exact ⟨State.widths_length (hfw ▸ hnf), hw, hrb⟩

/-- Storage `m` is that of `s` with the values `vs` in record `n` (43_field_access.md R105, R113). -/
structure State.RecordStored (s : State) (n : Nat) (vs : List Word) (m : Memory) : Prop where
  wf : m.wf
  field : ∀ (i : Nat) (hi : i < s.widths.length) (hv : i < vs.length) (j : Nat), j < s.widths[i] →
    m.bitAt (off s.widths s.rb.toNat n i + j) = vs[i].getLsbD j
  outside : ∀ b, b < n * s.rb.toNat ∨ (n + 1) * s.rb.toNat ≤ b → m.bitAt b = s.mem.bitAt b

/-- The fields of a record in range can be written (41_address_generation.md R86). -/
theorem State.Inv.exists_writeRecord {s : State} (h : s.Inv) (hv : s.valid = true) {n : Nat} {vs : List Word}
    (hn : vs.length = s.nf.toNat) (hr : s.InRange n) :
    ∃ m, s.writeRecord n vs = some m ∧ s.RecordStored n vs m := by
  obtain ⟨hlen, hw, hrb⟩ := h.fields hv
  obtain ⟨-, -, -, hmem, -⟩ := h
  obtain ⟨m, e, hwf, hfield, hout, -⟩ := State.writeRecord_spec hmem (hn.trans hlen.symm) hw hrb hr
  exact ⟨m, e, hwf, hfield, hout⟩

/-- Whatever storage the writing of a record leaves, it holds the values. -/
theorem State.Inv.recordStored {s : State} (h : s.Inv) (hv : s.valid = true) {n : Nat} {vs : List Word} {m : Memory}
    (hn : vs.length = s.nf.toNat) (hr : s.InRange n) (hm : s.writeRecord n vs = some m) : s.RecordStored n vs m := by
  obtain ⟨m', e, hst⟩ := h.exists_writeRecord hv hn hr
  rwa [Option.some.inj (hm.symm.trans e)]

/-- SET of a record in range whose fields can be written stores them and answers OK. -/
theorem execSet_of_writeRecord {s : State} {n : Word} {vs : List Word} {m : Memory} (hv : s.valid = true)
    (hn : vs.length = s.nf.toNat) (hr : s.InRange n.toNat) (hw : s.WidthsLegal)
    (hm : s.writeRecord n.toNat vs = some m) : execSet n vs s = .next ((s.withMem m).respond .ok []) := by
  unfold execSet
  rw [if_neg (by simp [hv]), if_neg (not_not.2 hn), if_neg (not_not.2 hr), if_neg (not_not.2 hw), hm]

/-- SET of a record in range completes under the invariant (43_field_access.md R105). -/
theorem State.Inv.exec_set {s : State} (h : s.Inv) (hv : s.valid = true) {n : Word} {vs : List Word}
    (hn : vs.length = s.nf.toNat) (hr : s.InRange n.toNat) :
    ∃ m, exec (.set n vs) s = .next ((s.withMem m).respond .ok []) ∧ s.RecordStored n.toNat vs m := by
  obtain ⟨-, hw, -⟩ := h.fields hv
  obtain ⟨m, hm, hst⟩ := h.exists_writeRecord hv hn hr
  exact ⟨m, execSet_of_writeRecord hv hn hr hw hm, hst⟩

/-- Settles O38: SET leaves the fields stored, and only its storage and its response are new. -/
theorem setWritesExactlyTheRecord : Obligations.SetWritesExactlyTheRecord := by
  intro n vs s h hv hn hr
  obtain ⟨m, e, hst⟩ := h.exec_set hv hn hr
  exact ⟨m, e, hst.field, hst.outside⟩

/-- Values stored over others leave the storage that they leave alone: a bit of the record is a bit of the later
values, any other bit is the one before both (43_field_access.md R112). -/
theorem State.RecordStored.overwrite {s : State} {n : Nat} {vs vs' : List Word} {m m₁ m₂ : Memory}
    (hrb : s.rb.toNat = s.widths.sum) (hlen : vs'.length = s.widths.length) (h : s.RecordStored n vs m)
    (h₁ : ((s.withMem m).respond .ok []).RecordStored n vs' m₁) (h₂ : s.RecordStored n vs' m₂) : m₁ = m₂ := by
  refine Memory.ext_of_bitAt h₁.wf h₂.wf fun b => ?_
  by_cases hb : b < n * s.rb.toNat ∨ (n + 1) * s.rb.toNat ≤ b
  · calc m₁.bitAt b = m.bitAt b := h₁.outside b hb
      _ = s.mem.bitAt b := h.outside b hb
      _ = m₂.bitAt b := (h₂.outside b hb).symm
  · obtain ⟨hlo, hhi⟩ := not_or.1 hb
    rw [hrb, Nat.not_lt] at hlo
    rw [hrb, Nat.not_le] at hhi
    obtain ⟨i, hi, j, hj, rfl⟩ := exists_field_of_record_bit hlo hhi
    rw [← hrb]
    exact (h₁.field i hi (hlen ▸ hi) j hj).trans (h₂.field i hi (hlen ▸ hi) j hj).symm

/-- Settles O41: the storage after both is the storage after the second alone. -/
theorem secondSetLeavesNoResidue : Obligations.SecondSetLeavesNoResidue := by
  intro n vs vs' s h hv hn hn' hr
  obtain ⟨hlen, -, hrb⟩ := h.fields hv
  obtain ⟨m, e, hst⟩ := h.exec_set hv hn hr
  obtain ⟨m₁, e₁, hst₁⟩ := (h.of_exec e).exec_set (n := n) hv hn' hr
  obtain ⟨m₂, e₂, hst₂⟩ := h.exec_set hv hn' hr
  exact ⟨_, _, _, e, e₁, e₂, hst.overwrite hrb (hn'.trans hlen.symm) hst₁ hst₂⟩

/-! ## What GET answers -/

/-- The words `qs` are the fields of record `n`, zero-extended (43_field_access.md R106). -/
structure State.RecordRead (s : State) (n : Nat) (qs : List Word) : Prop where
  length : qs.length = s.widths.length
  bit : ∀ (i : Nat) (hi : i < s.widths.length) (hq : i < qs.length) (j : Nat),
    qs[i].getLsbD j = (decide (j < s.widths[i]) && s.mem.bitAt (off s.widths s.rb.toNat n i + j))

/-- GET of a record in range answers its fields under the invariant (43_field_access.md R106). -/
theorem State.Inv.exec_get {s : State} (h : s.Inv) (hv : s.valid = true) {n : Word} (hr : s.InRange n.toNat) :
    ∃ qs, exec (.get n) s = .next (s.respond .ok qs) ∧ s.RecordRead n.toNat qs := by
  obtain ⟨-, hw, hrb⟩ := h.fields hv
  obtain ⟨qs, hq, hlen, hbit⟩ := State.readRecord_spec hw hrb hr
  exact ⟨qs, execGet_of_readRecord hv hr hw hq, hlen, hbit⟩

/-- A field read has no bit at or above its width (43_field_access.md R106). -/
theorem State.RecordRead.lt {s : State} {n : Nat} {qs : List Word} (h : s.RecordRead n qs) {i : Nat}
    (hi : i < s.widths.length) (hq : i < qs.length) : qs[i].toNat < 2 ^ s.widths[i] := by
  refine Nat.lt_pow_two_of_testBit _ fun j hj => ?_
  rw [BitVec.testBit_toNat, h.bit i hi hq j]
  simp [Nat.not_lt.2 hj]

/-- The answer OK with results, written out. -/
theorem State.respond_ok_of_length (s : State) {qs : List Word} {k : Nat} (h : qs.length = k) :
    s.respond .ok qs = { s with rsp := s.rsp ++ headerWord 0x00 k :: qs } := by
  subst h
  rfl

/-- Settles O39: GET answers the fields, and nothing but the response is new. -/
theorem getReadsTheRecord : Obligations.GetReadsTheRecord := by
  intro n s h hv hr
  obtain ⟨hlen, -, -⟩ := h.fields hv
  obtain ⟨qs, e, hread⟩ := h.exec_get hv hr
  have hqs : qs.length = s.nf.toNat := hread.length.trans hlen
  refine ⟨qs, hqs, by rw [e, s.respond_ok_of_length hqs], fun i hi hq => ⟨hread.lt hi hq, fun j hj => ?_⟩⟩
  rw [hread.bit i hi hq j, decide_eq_true hj, Bool.true_and]

/-! ## What leaves a record alone -/

/-- State `t` has the container of `s`, with the same bits in record `n`. -/
structure State.SameRecord (s t : State) (n : Nat) : Prop where
  valid : t.valid = s.valid
  nf : t.nf = s.nf
  fw : t.fw = s.fw
  rb : t.rb = s.rb
  nw : t.nw = s.nw
  bit : ∀ b, n * s.rb.toNat ≤ b → b < (n + 1) * s.rb.toNat → t.mem.bitAt b = s.mem.bitAt b

theorem State.SameRecord.refl (s : State) (n : Nat) : s.SameRecord s n :=
  ⟨rfl, rfl, rfl, rfl, rfl, fun _ _ _ => rfl⟩

theorem State.SameRecord.trans {s t u : State} {n : Nat} (h : s.SameRecord t n) (h' : t.SameRecord u n) :
    s.SameRecord u n where
  valid := h'.valid.trans h.valid
  nf := h'.nf.trans h.nf
  fw := h'.fw.trans h.fw
  rb := h'.rb.trans h.rb
  nw := h'.nw.trans h.nw
  bit b hlo hhi := (h'.bit b (h.rb.symm ▸ hlo) (h.rb.symm ▸ hhi)).trans (h.bit b hlo hhi)

theorem State.SameRecord.widths_eq {s t : State} {n : Nat} (h : s.SameRecord t n) : t.widths = s.widths := by
  rw [State.widths, State.widths, h.nf, h.fw]

theorem State.SameRecord.inRange {s t : State} {n k : Nat} (h : s.SameRecord t n) (hr : s.InRange k) :
    t.InRange k := by
  rw [State.InRange, h.rb, h.nw]
  exact hr

/-- The fields of a record are the same in states that agree on its bits. -/
theorem State.RecordRead.of_sameRecord {s t : State} {n : Nat} {qs : List Word} (h : s.SameRecord t n)
    (hrb : s.rb.toNat = s.widths.sum) (hread : t.RecordRead n qs) : s.RecordRead n qs where
  length := h.widths_eq ▸ hread.length
  bit i hi hq j := by
    have hbit := hread.bit i (h.widths_eq ▸ hi) hq j
    simp only [h.widths_eq, h.rb] at hbit
    rw [hbit]
    by_cases hj : j < s.widths[i]
    · obtain ⟨hlo, hhi⟩ := field_bit_in_record s.widths n hi hj
      rw [← hrb] at hlo hhi
      rw [h.bit _ hlo hhi]
    · simp [hj]

/-- A record has one reading. -/
theorem State.RecordRead.unique {s : State} {n : Nat} {qs qs' : List Word} (h : s.RecordRead n qs)
    (h' : s.RecordRead n qs') : qs = qs' := by
  refine List.ext_getElem (h.length.trans h'.length.symm) fun i hq hq' => BitVec.eq_of_getLsbD_eq fun j _ => ?_
  have hi : i < s.widths.length := h.length ▸ hq
  rw [h.bit i hi hq j, h'.bit i hi hq' j]

/-- A SET, whatever it answers, changes no bit outside its record (43_field_access.md R113). -/
theorem State.Inv.exec_set_outside {s t : State} (h : s.Inv) {n : Word} {vs : List Word}
    (e : exec (.set n vs) s = .next t) {b : Nat}
    (hb : b < n.toNat * s.rb.toNat ∨ (n.toNat + 1) * s.rb.toNat ≤ b) : t.mem.bitAt b = s.mem.bitAt b := by
  rcases execSet_next e with ⟨st, -, rfl⟩ | ⟨hv, hn, hr, -, m, hm, rfl⟩
  · rfl
  · exact (h.recordStored hv hn hr hm).outside b hb

/-- A command that is no constructor and no SET of a record leaves the record alone (10_state.md R21,
43_field_access.md R113). -/
theorem State.Inv.sameRecord_of_exec {s t : State} (h : s.Inv) {i : Instr} {n : Word} (hc : isConstructor i = false)
    (hs : setsRecord n i = false) (e : exec i s = .next t) : s.SameRecord t n.toNat := by
  cases exec_plainEnd hc e with
  | raised | answered | dumped | waits => exact ⟨rfl, rfl, rfl, rfl, rfl, fun _ _ _ => rfl⟩
  | stored k vs m =>
    have hne : n.toNat ≠ k.toNat := fun hnk => of_decide_eq_false hs (BitVec.eq_of_toNat_eq hnk.symm)
    exact ⟨rfl, rfl, rfl, rfl, rfl, fun b hlo hhi => h.exec_set_outside e (record_bit_outside_other hne hlo hhi)⟩

/-- Commands that are no constructors and no SETs of a record leave the record alone, and the invariant. -/
theorem State.Inv.sameRecord_of_execAll {n : Word} {is : List Instr} {s u : State} (h : s.Inv)
    (hc : ∀ c ∈ is, isConstructor c = false ∧ setsRecord n c = false) (e : execAll is s = some u) :
    u.Inv ∧ s.SameRecord u n.toNat := by
  induction is generalizing s with
  | nil =>
    obtain rfl : s = u := Option.some.inj e
    exact ⟨h, .refl s _⟩
  | cons i is ih =>
    obtain ⟨⟨hi, his⟩, hrest⟩ := List.forall_mem_cons.1 hc
    obtain ⟨t, ht⟩ := exec_total h i
    rw [execAll, ht] at e
    obtain ⟨hu, hsame⟩ := ih (h.of_exec ht) hrest e
    exact ⟨hu, (h.sameRecord_of_exec hi his ht).trans hsame⟩

/-- Settles O42: the SET leaves the other record alone, so its one reading is answered before and after. -/
theorem setLeavesOtherRecords : Obligations.SetLeavesOtherRecords := by
  intro n k vs s t h hv e
  refine ⟨fun b hb => h.exec_set_outside e hb, fun hne hr => ?_⟩
  have hsame := h.sameRecord_of_exec (n := k) (i := .set n vs) rfl (decide_eq_false hne.symm) e
  obtain ⟨-, -, hrb⟩ := h.fields hv
  obtain ⟨qs, es, hqs⟩ := h.exec_get hv hr
  obtain ⟨qs', et, hqs'⟩ := (h.of_exec e).exec_get (hsame.valid.trans hv) (hsame.inRange hr)
  obtain rfl := hqs.unique (hqs'.of_sameRecord hsame hrb)
  exact ⟨_, es, et⟩

/-! ## The round trip -/

/-- A SET that answers OK has stored its values: a fault's header is not that of OK (30_encoding.md R53). -/
theorem State.Inv.recordStored_of_ok {s t : State} (h : s.Inv) {n : Word} {vs : List Word}
    (e : exec (.set n vs) s = .next t) (hok : t.rsp = s.rsp ++ [0x0000000000000000#64]) :
    vs.length = s.nf.toNat ∧ s.InRange n.toNat ∧
      ∃ m, t = (s.withMem m).respond .ok [] ∧ s.RecordStored n.toNat vs m := by
  rcases execSet_next e with ⟨st, hst, rfl⟩ | ⟨hv, hn, hr, -, m, hm, rfl⟩
  · have hhead : rspHeader st 0 = 0x0000000000000000#64 := List.head_eq_of_cons_eq (List.append_cancel_left hok)
    rcases hst with rfl | rfl | rfl <;> exact absurd hhead (by decide)
  · exact ⟨hn, hr, m, rfl, h.recordStored hv hn hr hm⟩

/-- A record just stored reads as its values cut to the widths (43_field_access.md R111). -/
theorem State.RecordRead.of_stored {s : State} {n : Nat} {vs qs : List Word} {m : Memory}
    (hst : s.RecordStored n vs m) (hread : ((s.withMem m).respond .ok []).RecordRead n qs) {i : Nat}
    (hi : i < s.widths.length) (hv : i < vs.length) (hq : i < qs.length) (hw : s.widths[i] ≤ 64) :
    qs[i].toNat = vs[i].toNat % 2 ^ s.widths[i] := by
  have hcut : qs[i] = vs[i] &&& mask s.widths[i] := by
    refine BitVec.eq_of_getLsbD_eq fun j _ => ?_
    rw [hread.bit i hi hq j, BitVec.getLsbD_and, mask_getLsbD hw, Bool.and_comm]
    by_cases hj : j < s.widths[i]
    · exact congrArg (· && decide (j < s.widths[i])) (hst.field i hi hv j hj)
    · simp [hj]
  rw [hcut, and_mask_toNat _ hw]

/-- Settles O40: the SET stores the values, the commands between leave their record alone, and GET reads it. -/
theorem setThenGetRoundTrip : Obligations.SetThenGetRoundTrip := by
  intro n vs between s t u h hv e hok hbetween hu
  obtain ⟨hlen, hw, hrb⟩ := h.fields hv
  obtain ⟨hn, hr, m, rfl, hst⟩ := h.recordStored_of_ok e hok
  obtain ⟨hinv, hsame⟩ := (h.of_exec e).sameRecord_of_execAll hbetween hu
  obtain ⟨qs, hget, hread⟩ := hinv.exec_get (hsame.valid.trans hv) (hsame.inRange hr)
  have hreadm : ((s.withMem m).respond .ok []).RecordRead n.toNat qs := hread.of_sameRecord hsame hrb
  have hvs : vs.length = s.widths.length := hn.trans hlen.symm
  have hqs : qs.length = vs.length := hreadm.length.trans hvs.symm
  refine ⟨qs, hqs, hvs, by rw [hget, u.respond_ok_of_length hqs], fun i hq hvi hi => ?_⟩
  exact hreadm.of_stored hst hi hvi hq (hw _ (List.getElem_mem hi))

end Sys2Proof.Machine
end

section
/-! PROOF. The family 44_snapshot.md, the sink and the wait: a command that waits at a silent snapshot port, and what a
step keeps of it; the layout of a snapshot, which is one header and the owned words; DUMP, which is one write of it. -/

namespace Sys2Proof.Machine

/-! ## A command that waits at a snapshot port -/

theorem exec_ldu_of_silent {s : State} (h : s.src.ready = false) : exec .ldu s = .next (s.hold .ldu) := if_pos h

theorem exec_ldm_of_silent {s : State} (h : s.src.ready = false) : exec .ldm s = .next (s.hold .ldm) := if_pos h

theorem exec_dump_of_silent {s : State} (hv : s.valid = true) (h : s.snk.ready = false) :
    exec .dump s = .next (s.hold .dump) := by
  simp [exec, execDump, hv, h]

/-- Settles O10: a load drops the container before its first access, a DUMP has nothing to do before its first. -/
theorem silentPortHoldsTheCommand : Obligations.SilentPortHoldsTheCommand :=
  ⟨fun _ h => ⟨⟨_, exec_ldu_of_silent h, rfl, rfl⟩, _, exec_ldm_of_silent h, rfl, rfl⟩,
    fun _ hv h => exec_dump_of_silent hv h⟩

theorem State.heldInv_hold {s : State} {k : Held} (hf : s.fault = 0x00#8) (hu : s.unsent = [])
    (hv : k.instr = .dump → s.valid = true) : (s.hold k).HeldInv := by
  cases k with
  | ldu | ldm => exact ⟨fun _ => rfl, by simp, fun _ => ⟨hf, hu⟩⟩
  | dump => exact ⟨by simp, fun _ => hv rfl, fun _ => ⟨hf, hu⟩⟩

/-- A turn that has sent nothing leaves nothing to be sent, whatever the host takes. -/
theorem State.HeldInv.emit {s t : State} (h : t.HeldInv) (hr : t.rsp = s.rsp) : (s.emit t).HeldInv := by
  rcases s.emit_cases t with ⟨-, e⟩ | ⟨k, -, e⟩ <;> rw [e]
  · exact h
  · obtain ⟨hload, hdump, hrest⟩ := h
    refine ⟨hload, hdump, fun hh => ⟨(hrest hh).left, ?_⟩⟩
    rw [State.holdBack_unsent, hr, List.drop_length, List.drop_nil]

/-- A command that runs where none is stuck ends with none stuck, or is the one that is, before it has answered. -/
theorem State.heldInv_emit_of_exec {s s' u : State} {i : Instr} (hrsp : s'.rsp = s.rsp) (hf : s'.fault = 0x00#8)
    (hu : s'.unsent = []) (hh : s'.held = none) (e : exec i s' = .next u) : (s.emit u).HeldInv := by
  obtain ⟨-, ⟨-, hheld⟩ | ⟨-, k, rfl, rfl, hv⟩⟩ := exec_held e
  · exact State.heldInv_of_held_none (by rw [State.emit_held, hheld, hh])
  · exact (State.heldInv_hold hf hu hv).emit (by rw [State.hold_rsp, hrsp])

/-- Settles O12: after a reset, a response sent or an illegal header no command is stuck; the others are commands that
run where none is. -/
theorem stepKeepsTheHeldInvariant : Obligations.StepKeepsTheHeldInvariant := by
  intro s t ⟨_, _, hrest⟩ e
  rcases step_next e with ⟨moved, -, rfl⟩ | ⟨-, e⟩
  · obtain ⟨src, snk, e⟩ := s.resetDuring_cases moved
    rw [e]
    exact State.heldInv_of_held_none rfl
  · rcases runCommand_next e with ⟨hu, -, rfl⟩ | ⟨hu, hf, u, rfl, ⟨k, -, -, hx⟩ | ⟨hh, hframe⟩⟩
    · have hh : s.held = none := by
        by_contra hne
        exact hu (hrest hne).right
      exact State.heldInv_of_held_none (by rw [State.emit_held, State.send_held, hh])
    · exact State.heldInv_emit_of_exec (s' := s.withHeld none) rfl hf hu rfl hx
    · rcases hframe with ⟨i, rest, -, hx⟩ | ⟨why, rest, -, rfl⟩
      · exact State.heldInv_emit_of_exec (s' := s.withCmd rest) rfl hf hu hh hx
      · exact State.heldInv_of_held_none ((State.emit_held _ _).trans hh)

/-! ## The layout of a snapshot -/

theorem flatMap_le64_length (ws : List Word) : (ws.flatMap le64).length = 8 * ws.length := by
  simp [List.length_flatMap, Nat.mul_comm]

/-- Word `k` stands in the 8 bytes from `8 k` on. -/
theorem flatMap_le64_take_drop (ws : List Word) {k : Nat} (hk : k < ws.length) :
    ((ws.flatMap le64).drop (8 * k)).take 8 = le64 ws[k] := by
  induction ws generalizing k with
  | nil => exact absurd hk (Nat.not_lt_zero k)
  | cons w ws ih =>
    rw [List.flatMap_cons]
    cases k with
    | zero => exact List.take_left' (le64_length w)
    | succ k =>
      rw [Nat.mul_succ, Nat.add_comm, ← le64_length w, List.drop_length_add_append, le64_length]
      exact ih (Nat.lt_of_succ_lt_succ hk)

/-- The words the container owns, in address order (20_memory.md R31). -/
def State.ownedWords (s : State) : List Word := (List.range s.nw.toNat).map s.mem.read

@[simp] theorem State.ownedWords_length (s : State) : s.ownedWords.length = s.nw.toNat := by simp [State.ownedWords]

theorem State.ownedWords_getElem (s : State) {k : Nat} (hk : k < s.ownedWords.length) :
    s.ownedWords[k] = s.mem.read k := by
  simp [State.ownedWords]

theorem State.snapshot_eq (s : State) : s.snapshot = s.snapshotHeader ++ s.ownedWords.flatMap le64 := by
  simp [State.snapshot, State.ownedWords, wordBytes_eq]

/-- The width bytes of a snapshot are the widths (44_snapshot.md R117, R118). -/
theorem State.map_widths_ofNat (s : State) :
    s.widths.map (BitVec.ofNat 8) = (s.fw.take s.nf.toNat).map (BitVec.setWidth 8) := by
  simp [State.widths, Function.comp_def]

theorem State.snapshotHeader_of_multi {s : State} (hm : s.mode = .multi) :
    s.snapshotHeader = le64 (BitVec.ofNat 64 s.nf.toNat) ++ le64 (BitVec.ofNat 64 s.nw.toNat) ++
      s.widths.map (BitVec.ofNat 8) := by
  rw [State.map_widths_ofNat, BitVec.ofNat_toNat, BitVec.ofNat_toNat, State.snapshotHeader, hm]

/-- A uniform container has one field (10_state.md R19). -/
theorem State.Inv.nf_of_uniform {s : State} (h : s.Inv) (hv : s.valid = true) (hm : s.mode = .uniform) :
    s.nf.toNat = 1 := by
  obtain ⟨-, -, -, -, hcont⟩ := h
  obtain ⟨-, hone, -⟩ := hcont hv
  exact hone hm

/-- The width byte of a uniform container shows its one width register (44_snapshot.md R117). -/
theorem State.Inv.snapshotHeader_of_uniform {s : State} (h : s.Inv) (hv : s.valid = true) (hm : s.mode = .uniform) :
    s.snapshotHeader = s.widths.map (BitVec.ofNat 8) ++ le64 (BitVec.ofNat 64 s.nw.toNat) := by
  have hnf := h.nf_of_uniform hv hm
  obtain ⟨⟨hone, -⟩, -, hfw, -, -⟩ := h
  obtain ⟨w, ws, hw⟩ := List.exists_cons_of_length_pos (hfw ▸ hone)
  rw [State.map_widths_ofNat, BitVec.ofNat_toNat, State.snapshotHeader, hm, hnf, hw]
  rfl

/-- The words of a snapshot follow its header without a gap (44_snapshot.md R118). -/
theorem State.snapshot_layout (s : State) {n : Nat} (hn : s.snapshotHeader.length = n) :
    s.snapshot.length = n + 8 * s.nw.toNat ∧ s.snapshot.take n = s.snapshotHeader ∧
      ∀ k < s.nw.toNat, (s.snapshot.drop (n + 8 * k)).take 8 = le64 (s.mem.read k) := by
  rw [State.snapshot_eq]
  refine ⟨?_, List.take_left' hn, fun k hk => ?_⟩
  · rw [List.length_append, hn, flatMap_le64_length, State.ownedWords_length]
  · have hk' : k < s.ownedWords.length := by rwa [State.ownedWords_length]
    rw [← hn, List.drop_length_add_append, flatMap_le64_take_drop _ hk', State.ownedWords_getElem]

/-- Settles O45: the header of each mode has its length, and the words follow it. -/
theorem snapshotLayout : Obligations.SnapshotLayout := by
  intro s h hv
  obtain ⟨hlen, -⟩ := h.fields hv
  refine ⟨fun hm => ?_, fun hm => ?_⟩
  · have hone := h.nf_of_uniform hv hm
    have hhead := h.snapshotHeader_of_uniform hv hm
    rw [← hhead]
    exact s.snapshot_layout (by simp [hhead, hlen, hone])
  · have hhead := State.snapshotHeader_of_multi hm
    rw [← hhead]
    refine s.snapshot_layout ?_
    simp only [hhead, List.length_append, le64_length, List.length_map, hlen, Nat.reduceAdd]

/-! ## DUMP -/

/-- DUMP is one write of the snapshot, and its status says whether the sink accepted it whole (44_snapshot.md R119). -/
theorem exec_dump_of_write {s : State} {snk : Sink} {ok : Bool} (hv : s.valid = true) (hr : s.snk.ready = true)
    (e : s.snk.write s.snapshot = (snk, ok)) :
    exec .dump s = .next ((s.withSnk snk).respond (if ok then .ok else .ioError) []) := by
  cases ok <;> simp [exec, execDump, hv, hr, State.dumpTo_eq, e]

/-- Settles O46: the sink accepts the snapshot whole unless its next failure comes before the last byte. -/
theorem dumpDeliversTheSnapshot : Obligations.DumpDeliversTheSnapshot := by
  intro s hv hr
  refine ⟨fun hs => ?_, fun r rs hs hle => ?_, fun r rs hs hlt => ?_⟩
  · rw [exec_dump_of_write hv hr (Sink.write_of_allow (by simp [hs, stopsAllow])), Sink.accept, hs]
    rfl
  · rw [exec_dump_of_write hv hr (Sink.write_of_allow (by simpa [hs, stopsAllow] using hle)), Sink.accept, hs]
    rfl
  · rw [exec_dump_of_write hv hr (Sink.write_of_stop hs hlt)]
    rfl

end Sys2Proof.Machine
end

section
/-! PROOF. The family 44_snapshot.md, the source: what the header of a load reads, by how many bytes the source
delivers; the loads that fail, which all end alike; the loads that succeed, and with them the round trip. -/

namespace Sys2Proof.Machine

/-! ## The header of a load -/

theorem Source.exists_read_of_gt {src : Source} {k : Nat} (h : src.deliverable < k) :
    ∃ src', src.read k = (src', none) := by
  obtain ⟨hnone, -, -⟩ := Source.read_of_gt h
  exact ⟨_, Prod.ext rfl hnone⟩

/-- Two reads one after the other, the second at the bytes after the first. -/
theorem Source.read_advance_of_le {src : Source} {j k : Nat} (hk : 0 < k) (h : j + k ≤ src.deliverable) :
    (src.advance j).read k = (src.advance (j + k), some ((src.ahead.drop j).take k)) := by
  rw [Source.read_of_le hk (by rw [Source.advance_deliverable]; omega), Source.advance_advance, Source.advance_ahead]

theorem Source.exists_read_advance_of_gt {src : Source} {j k : Nat} (hj : j ≤ src.deliverable)
    (h : src.deliverable < j + k) : ∃ src', (src.advance j).read k = (src', none) :=
  Source.exists_read_of_gt (by rw [Source.advance_deliverable]; omega)

/-- The uniform header is a width byte and a word count (44_snapshot.md R117). -/
theorem readUniformHeader_of_le {src : Source} (h : 9 ≤ src.deliverable) :
    readUniformHeader src = (src.advance 9, .ok
      { widths := (src.ahead.take 1).map BitVec.toNat, words := (fromLe64 ((src.ahead.drop 1).take 8)).toNat }) := by
  have hwidth : src.read 1 = _ := Source.read_of_le (by decide) (by omega)
  have hcount : (src.advance 1).read 8 = _ := Source.read_advance_of_le (by decide) h
  simp only [readUniformHeader, hwidth, hcount]

theorem readUniformHeader_of_gt {src : Source} (h : src.deliverable < 9) :
    (readUniformHeader src).2 = .error .ioError := by
  rcases Nat.lt_or_ge src.deliverable 1 with h1 | h1
  · obtain ⟨src', e⟩ := Source.exists_read_of_gt h1
    simp only [readUniformHeader, e]
  · obtain ⟨src', e⟩ := Source.exists_read_advance_of_gt (k := 8) h1 h
    simp only [readUniformHeader, Source.read_of_le Nat.one_pos h1, e]

/-- No width byte is asked for where there are no fields (44_snapshot.md R121). -/
theorem readWidthBytes_of_le {src : Source} {n : Nat} (h : n ≤ src.deliverable) :
    readWidthBytes src n = (src.advance n, some (src.ahead.take n)) := by
  unfold readWidthBytes
  split_ifs with hn
  · subst hn
    rw [Source.advance_zero, List.take_zero]
  · exact Source.read_of_le (Nat.pos_of_ne_zero hn) h

theorem exists_readWidthBytes_of_gt {src : Source} {n : Nat} (h : src.deliverable < n) :
    ∃ src', readWidthBytes src n = (src', none) := by
  rw [readWidthBytes, if_neg (Nat.ne_zero_of_lt h)]
  exact Source.exists_read_of_gt h

theorem readMultiHeader_of_gt {nfMax : Nat} {src : Source} (h : src.deliverable < 16) :
    (readMultiHeader nfMax src).2 = .error .ioError := by
  rcases Nat.lt_or_ge src.deliverable 8 with h8 | h8
  · obtain ⟨src', e⟩ := Source.exists_read_of_gt h8
    simp only [readMultiHeader, e]
  · obtain ⟨src', e⟩ := Source.exists_read_advance_of_gt (k := 8) h8 h
    simp only [readMultiHeader, Source.read_of_le (by decide : 0 < 8) h8, e]

/-- What follows the two counts of the multi-field header: too many fields, too few width bytes, or all of them
(44_snapshot.md R118, R126). -/
theorem readMultiHeader_of_counts {nfMax nf : Nat} {src : Source} (h : 16 ≤ src.deliverable)
    (hnf : nf = (fromLe64 (src.ahead.take 8)).toNat) :
    (nf > nfMax → (readMultiHeader nfMax src).2 = .error .resourceError) ∧
    (nf ≤ nfMax → src.deliverable < 16 + nf → (readMultiHeader nfMax src).2 = .error .ioError) ∧
    (nf ≤ nfMax → 16 + nf ≤ src.deliverable →
      readMultiHeader nfMax src = (src.advance (16 + nf), .ok
        { widths := ((src.ahead.drop 16).take nf).map BitVec.toNat
          words := (fromLe64 ((src.ahead.drop 8).take 8)).toNat })) := by
  have hfields : src.read 8 = _ := Source.read_of_le (by decide) (by omega)
  have hwords : (src.advance 8).read 8 = _ := Source.read_advance_of_le (by decide) h
  simp only [readMultiHeader, hfields, hwords, ← hnf, Nat.reduceAdd]
  refine ⟨fun hmany => by rw [if_pos hmany], fun hfit hshort => ?_, fun hfit hle => ?_⟩ <;> rw [if_neg hfit.not_gt]
  · obtain ⟨src', e⟩ := exists_readWidthBytes_of_gt (src := src.advance 16) (n := nf)
      (by rw [Source.advance_deliverable]; omega)
    rw [e]
  · rw [readWidthBytes_of_le (by rw [Source.advance_deliverable]; omega), Source.advance_advance,
      Source.advance_ahead]

theorem exec_ldu_of_ready {s : State} (h : s.src.ready = true) :
    exec .ldu s = .next (load .uniform (readUniformHeader s.src) s) := if_neg (by simp [h])

theorem exec_ldm_of_ready {s : State} (h : s.src.ready = true) :
    exec .ldm s = .next (load .multi (readMultiHeader s.cfg.nfMax s.src) s) := if_neg (by simp [h])

/-! ## A load that fails -/

/-- State `t` is what a load that ends with the error `st` makes of `s`: no container, the status answered, and
everything outside the container and the source as it was (44_snapshot.md R128). -/
def State.LoadFailed (s t : State) (st : Status) : Prop :=
  t.valid = false ∧ t.rsp = s.rsp ++ [rspHeader st 0] ∧ t.fault = s.fault ∧ t.cfg = s.cfg ∧ t.cmd = s.cmd ∧
    t.rspRoom = s.rspRoom ∧ t.unsent = s.unsent ∧ t.held = s.held ∧ t.snk = s.snk ∧ t.rst = s.rst

theorem State.loadFailed_failLoad (s : State) (src : Source) (st : Status) : s.LoadFailed (s.failLoad src st) st :=
  ⟨rfl, rfl, rfl, rfl, rfl, rfl, rfl, rfl, rfl, rfl⟩

theorem State.loadFailed_of_header {mode : Mode} {hd : Source × Except Status LoadHeader} {st : Status} (s : State)
    (h : hd.2 = .error st) : s.LoadFailed (load mode hd s) st := by
  obtain ⟨src, r⟩ := hd
  obtain rfl : r = .error st := h
  exact s.loadFailed_failLoad src st

/-- Widths of at most 64 pass the width check (44_snapshot.md R125). -/
theorem not_any_width_gt {ws : List Nat} (hw : ∀ w ∈ ws, w ≤ 64) : ¬ ws.any (fun w => decide (w > 64)) = true := by
  simpa using hw

section Body

variable {mode : Mode} {src : Source} {s : State} {bs : List Byte} {n : Nat}

/-- A width above 64 is the first thing wrong with a header that was read (44_snapshot.md R125, R126). -/
theorem State.loadFailed_of_width (hw : ∃ b ∈ bs, b.toNat > 64) :
    s.LoadFailed (load mode (src, .ok { widths := bs.map BitVec.toNat, words := n }) s) .formatError := by
  have hany : (bs.map BitVec.toNat).any (fun w => decide (w > 64)) = true := by simpa using hw
  rw [load, loadBody, if_pos hany]
  exact s.loadFailed_failLoad _ _

theorem State.loadFailed_of_words (hw : ∀ b ∈ bs, b.toNat ≤ 64) (hn : n > s.cfg.nwMax) :
    s.LoadFailed (load mode (src, .ok { widths := bs.map BitVec.toNat, words := n }) s) .resourceError := by
  rw [load, loadBody, if_neg (not_any_width_gt (List.forall_mem_map.2 hw)), if_pos hn]
  exact s.loadFailed_failLoad _ _

theorem State.loadFailed_of_short (hw : ∀ b ∈ bs, b.toNat ≤ 64) (hn : n ≤ s.cfg.nwMax)
    (hd : src.deliverable < 8 * n) :
    s.LoadFailed (load mode (src, .ok { widths := bs.map BitVec.toNat, words := n }) s) .ioError := by
  obtain ⟨src', e⟩ : ∃ src', readWords 0 n src [] = (src', none) := ⟨_, Prod.ext rfl (readWords_short n 0 src [] hd)⟩
  rw [load, loadBody, if_neg (not_any_width_gt (List.forall_mem_map.2 hw)), if_neg hn.not_gt, e]
  exact s.loadFailed_failLoad _ _

end Body

/-- Settles O49: the header comes short, or it is read and its widths, its word count and the words are tested in that
order. -/
theorem lduReportsTheFirstFailure : Obligations.LduReportsTheFirstFailure := by
  intro s st wc hr hwc hfail
  refine ⟨_, exec_ldu_of_ready hr, ?_⟩
  rcases hfail with ⟨hd, rfl⟩ | ⟨hd, hw, rfl⟩ | ⟨hd, hw, hn, rfl⟩ | ⟨hd, hw, hn, hshort, rfl⟩
  · exact s.loadFailed_of_header (readUniformHeader_of_gt hd)
  all_goals rw [readUniformHeader_of_le hd, ← hwc]
  · exact State.loadFailed_of_width hw
  · exact State.loadFailed_of_words hw hn
  · exact State.loadFailed_of_short hw hn (by rw [Source.advance_deliverable]; omega)

/-- Settles O50: the counts come short, the fields are too many, the width bytes come short, or the header is read and
tested as that of LDU. -/
theorem ldmReportsTheFirstFailure : Obligations.LdmReportsTheFirstFailure := by
  intro s st nf wc hr hnf hwc hfail
  refine ⟨_, exec_ldm_of_ready hr, ?_⟩
  rcases hfail with ⟨hd, rfl⟩ | ⟨hd, hmany, rfl⟩ | ⟨hd, hfit, hshort, rfl⟩ | ⟨hd, hfit, hw, rfl⟩ |
    ⟨hd, hfit, hw, hn, rfl⟩ | ⟨hd, hfit, hw, hn, hshort, rfl⟩
  · exact s.loadFailed_of_header (readMultiHeader_of_gt hd)
  · obtain ⟨hresource, -, -⟩ := readMultiHeader_of_counts (nfMax := s.cfg.nfMax) hd hnf
    exact s.loadFailed_of_header (hresource hmany)
  · obtain ⟨-, hio, -⟩ := readMultiHeader_of_counts (nfMax := s.cfg.nfMax) hd hnf
    exact s.loadFailed_of_header (hio hfit hshort)
  all_goals
    obtain ⟨-, -, hread⟩ := readMultiHeader_of_counts (nfMax := s.cfg.nfMax) (by omega) hnf
    rw [hread hfit hd, ← hwc]
  · exact State.loadFailed_of_width hw
  · exact State.loadFailed_of_words hw hn
  · exact State.loadFailed_of_short hw hn (by rw [Source.advance_deliverable]; omega)

/-! ## The words of a load -/

/-- Storage with words written one after the other from address `k` on. -/
def Memory.writeWords (m : Memory) : Nat → List Word → Memory
  | _, [] => m
  | k, w :: ws => Memory.writeWords (m.write k w) (k + 1) ws

theorem Memory.wf_writeWords {m : Memory} (h : m.wf) (k : Nat) (ws : List Word) : (m.writeWords k ws).wf := by
  induction ws generalizing m k with
  | nil => exact h
  | cons w ws ih => exact ih (Memory.wf_write k w h) (k + 1)

/-- The words written read as such, every other word as before. -/
theorem Memory.read_writeWords {m : Memory} (h : m.wf) (k : Nat) (ws : List Word) (p : Nat) :
    (m.writeWords k ws).read p = if p < k then m.read p else ws.getD (p - k) (m.read p) := by
  induction ws generalizing m k with
  | nil => simp [Memory.writeWords]
  | cons w ws ih =>
    rw [Memory.writeWords, ih (Memory.wf_write k w h), Memory.read_write k p w h]
    rcases lt_trichotomy p k with hlt | rfl | hgt
    · rw [if_pos (by omega), if_neg (by omega), if_pos hlt]
    · rw [if_pos (by omega), if_pos rfl, if_neg (by omega), Nat.sub_self, List.getD_cons_zero]
    · rw [if_neg (by omega), if_neg (by omega), if_neg (by omega), show p - k = (p - (k + 1)) + 1 by omega,
        List.getD_cons_succ]

/-- Words that lie ahead of the source are read and written one after the other (44_snapshot.md R121). -/
theorem readWords_of_ahead {ws : List Word} {rest : List Byte} {src : Source} (hd : 8 * ws.length ≤ src.deliverable)
    (ha : src.ahead = ws.flatMap le64 ++ rest) (k : Nat) (m : Memory) :
    readWords k ws.length src m = (src.advance (8 * ws.length), some (m.writeWords k ws)) := by
  induction ws generalizing src k m with
  | nil => simp [readWords, Memory.writeWords]
  | cons w ws ih =>
    rw [List.flatMap_cons, List.append_assoc] at ha
    rw [List.length_cons, Nat.mul_succ] at hd
    have hread : src.read 8 = (src.advance 8, some (le64 w)) := by
      rw [Source.read_of_le (by decide) (by omega), ha, List.take_left' (le64_length w)]
    have hahead : (src.advance 8).ahead = ws.flatMap le64 ++ rest := by
      rw [Source.advance_ahead, ha, List.drop_left' (le64_length w)]
    rw [List.length_cons, readWords, hread]
    dsimp only
    rw [ih (by rw [Source.advance_deliverable]; omega) hahead, Source.advance_advance, fromLe64_le64,
      Memory.writeWords, Nat.mul_succ, Nat.add_comm 8]

/-! ## A load that succeeds -/

/-- State `t` is `s` with the declared container in place of its own, OK answered and the source moved to `src`
(44_snapshot.md R121, R127). -/
structure State.Loaded (s t : State) (mode : Mode) (widths : List Nat) (words : List Word) (src : Source) :
    Prop where
  valid : t.valid = true
  mode_eq : t.mode = mode
  nf : t.nf.toNat = widths.length
  widths_eq : t.widths = widths
  rb : t.rb.toNat = widths.sum
  nw : t.nw.toNat = words.length
  mem : t.mem = Memory.writeWords [] 0 words
  frame : t = { s with valid := t.valid, mode := t.mode, nf := t.nf, fw := t.fw, rb := t.rb, nw := t.nw,
                       mem := t.mem, src := src, rsp := s.rsp ++ [0x0000000000000000#64] }

/-- Word `k` of the container loaded is the `k`-th word declared. -/
theorem State.Loaded.memRead_eq {s t : State} {mode : Mode} {widths : List Nat} {words : List Word} {src : Source}
    (h : s.Loaded t mode widths words src) {k : Nat} (hk : k < words.length) :
    memRead t.nw.toNat t.mem k = some words[k] := by
  rw [memRead_eq_some, h.nw, h.mem, Memory.read_writeWords Memory.wf_nil]
  exact ⟨hk, by simp [hk]⟩

/-- A source delivers the snapshot that lies ahead of it where its next failure is not scheduled before the end. -/
theorem Source.le_deliverable_of_snapshot {src : Source} {header rest : List Byte} {words : List Word} {n : Nat}
    (hlen : header.length = n) (hs : ∀ r rs, src.stops = r :: rs → n + 8 * words.length ≤ r)
    (ha : src.ahead = header ++ words.flatMap le64 ++ rest) : n + 8 * words.length ≤ src.deliverable := by
  refine Source.le_deliverable hs ?_
  rw [ha, List.length_append, List.length_append, hlen, flatMap_le64_length]
  exact Nat.le_add_right _ _

/-- Widths and words that fit the registers are what the registers and the storage show. -/
theorem State.loaded_install (s : State) (src : Source) (mode : Mode) {widths : List Nat} {words : List Word}
    (hl : widths.length ≤ 255) (hw : ∀ w ∈ widths, w ≤ 64) (hn : words.length < 2 ^ 58) :
    s.Loaded (((s.withSrc src).install mode widths words.length (Memory.writeWords [] 0 words)).respond .ok [])
      mode widths words src where
  valid := rfl
  mode_eq := rfl
  nf := Nat.mod_eq_of_lt (by omega)
  widths_eq := State.install_widths _ mode widths words.length (Memory.writeWords [] 0 words) hl hw
  rb := Nat.mod_eq_of_lt (by have hsum := sum_le_of_le hw; omega)
  nw := Nat.mod_eq_of_lt hn
  mem := rfl
  frame := rfl

/-- A header whose widths and word count fit, with the words after it, builds the container declared. -/
theorem State.loaded_of_header {s : State} (hc : s.cfg.Legal) (mode : Mode) {widths : List Nat} {words : List Word}
    {header rest : List Byte} {n : Nat} (hlen : header.length = n)
    (hs : ∀ r rs, s.src.stops = r :: rs → n + 8 * words.length ≤ r)
    (ha : s.src.ahead = header ++ words.flatMap le64 ++ rest) (hl : widths.length ≤ s.cfg.nfMax)
    (hw : ∀ w ∈ widths, w ≤ 64) (hn : words.length ≤ s.cfg.nwMax) :
    s.Loaded (load mode (s.src.advance n, .ok { widths := widths, words := words.length }) s) mode widths words
      (s.src.advance (n + 8 * words.length)) := by
  obtain ⟨-, hnf, -, hnw⟩ := hc
  have hd : 8 * words.length ≤ (s.src.advance n).deliverable := by
    rw [Source.advance_deliverable]
    exact Nat.le_sub_of_add_le' (Source.le_deliverable_of_snapshot hlen hs ha)
  have hahead : (s.src.advance n).ahead = words.flatMap le64 ++ rest := by
    rw [Source.advance_ahead, ha, List.append_assoc, List.drop_left' hlen]
  rw [load, loadBody, if_neg (not_any_width_gt hw), if_neg hn.not_gt, readWords_of_ahead hd hahead,
    Source.advance_advance]
  exact s.loaded_install _ mode (hl.trans hnf) hw (hn.trans_lt hnw)

/-- The bytes of a word count read as that count. -/
theorem toNat_fromLe64_le64_ofNat {n : Nat} (h : n < 2 ^ 64) : (fromLe64 (le64 (BitVec.ofNat 64 n))).toNat = n := by
  rw [fromLe64_le64, BitVec.toNat_ofNat, Nat.mod_eq_of_lt h]

/-- LDU of a uniform snapshot that fits (44_snapshot.md R122). -/
theorem State.exists_loaded_ldu {s : State} {width : Byte} {words : List Word} {rest : List Byte} (hc : s.cfg.Legal)
    (hr : s.src.ready = true) (hs : ∀ r rs, s.src.stops = r :: rs → 9 + 8 * words.length ≤ r)
    (ha : s.src.ahead = [width] ++ le64 (BitVec.ofNat 64 words.length) ++ words.flatMap le64 ++ rest)
    (hw : width.toNat ≤ 64) (hn : words.length ≤ s.cfg.nwMax) :
    ∃ t, exec .ldu s = .next t ∧
      s.Loaded t .uniform [width.toNat] words (s.src.advance (9 + 8 * words.length)) := by
  refine ⟨_, exec_ldu_of_ready hr, ?_⟩
  obtain ⟨hone, -, -, hnw⟩ := id hc
  have hlen : ([width] ++ le64 (BitVec.ofNat 64 words.length)).length = 9 := rfl
  have hd := Source.le_deliverable_of_snapshot hlen hs ha
  have hwords : (s.src.ahead.drop 1).take 8 = le64 (BitVec.ofNat 64 words.length) := by
    rw [ha, List.append_assoc]
    exact List.take_left' (le64_length _)
  have hread : readUniformHeader s.src =
      (s.src.advance 9, .ok { widths := [width.toNat], words := words.length }) := by
    rw [readUniformHeader_of_le (by omega), hwords, toNat_fromLe64_le64_ofNat (by omega), ha]
    rfl
  rw [hread]
  exact State.loaded_of_header hc .uniform hlen hs ha hone (by simpa using hw) hn

/-- LDM of a multi-field snapshot that fits (44_snapshot.md R123). -/
theorem State.exists_loaded_ldm {s : State} {widths : List Byte} {words : List Word} {rest : List Byte}
    (hc : s.cfg.Legal) (hr : s.src.ready = true)
    (hs : ∀ r rs, s.src.stops = r :: rs → 16 + widths.length + 8 * words.length ≤ r)
    (ha : s.src.ahead = le64 (BitVec.ofNat 64 widths.length) ++ le64 (BitVec.ofNat 64 words.length) ++ widths ++
      words.flatMap le64 ++ rest)
    (hl : widths.length ≤ s.cfg.nfMax) (hw : ∀ w ∈ widths, w.toNat ≤ 64) (hn : words.length ≤ s.cfg.nwMax) :
    ∃ t, exec .ldm s = .next t ∧
      s.Loaded t .multi (widths.map BitVec.toNat) words (s.src.advance (16 + widths.length + 8 * words.length)) := by
  refine ⟨_, exec_ldm_of_ready hr, ?_⟩
  obtain ⟨-, hnf, -, hnw⟩ := id hc
  have hlen : (le64 (BitVec.ofNat 64 widths.length) ++ le64 (BitVec.ofNat 64 words.length) ++ widths).length =
      16 + widths.length := by simp only [List.length_append, le64_length, Nat.reduceAdd]
  have hd := Source.le_deliverable_of_snapshot hlen hs ha
  simp only [List.append_assoc] at ha
  have hfields : s.src.ahead.take 8 = le64 (BitVec.ofNat 64 widths.length) := by
    rw [ha]
    exact List.take_left' (le64_length _)
  have hwords : (s.src.ahead.drop 8).take 8 = le64 (BitVec.ofNat 64 words.length) := by
    rw [ha]
    exact List.take_left' (le64_length _)
  have hwidths : (s.src.ahead.drop 16).take widths.length = widths := by
    rw [ha]
    exact List.take_left' rfl
  have hread : readMultiHeader s.cfg.nfMax s.src =
      (s.src.advance (16 + widths.length),
        .ok { widths := widths.map BitVec.toNat, words := words.length }) := by
    obtain ⟨-, -, e⟩ := readMultiHeader_of_counts (nfMax := s.cfg.nfMax) (nf := widths.length) (src := s.src)
      (by omega) (by rw [hfields, toNat_fromLe64_le64_ofNat (by omega)])
    rw [e hl (by omega), hwidths, hwords, toNat_fromLe64_le64_ofNat (by omega)]
  rw [hread]
  exact State.loaded_of_header hc .multi hlen hs (by simpa only [List.append_assoc] using ha) (by simpa using hl)
    (List.forall_mem_map.2 hw) hn

/-- Settles O47: what LDU loads, with the width as the one field. -/
theorem lduLoadsTheSnapshot : Obligations.LduLoadsTheSnapshot := by
  intro s width words rest hc hr hs ha hw hn
  obtain ⟨t, e, h⟩ := State.exists_loaded_ldu hc hr hs ha hw hn
  exact ⟨t, e, h.valid, h.mode_eq, h.nf, h.widths_eq, h.rb, h.nw, fun _ => h.memRead_eq, h.frame⟩

/-- Settles O48: what LDM loads, with a field for every width byte. -/
theorem ldmLoadsTheSnapshot : Obligations.LdmLoadsTheSnapshot := by
  intro s widths words rest hc hr hs ha hl hw hn
  obtain ⟨t, e, h⟩ := State.exists_loaded_ldm hc hr hs ha hl hw hn
  exact ⟨t, e, h.valid, h.mode_eq, h.nf.trans (List.length_map _), h.widths_eq, h.rb, h.nw,
    fun _ => h.memRead_eq, h.frame⟩

/-! ## The round trip -/

/-- The storage of a container is its owned words written into blank storage. -/
theorem State.Inv.writeWords_ownedWords {s : State} (h : s.Inv) (hv : s.valid = true) :
    Memory.writeWords [] 0 s.ownedWords = s.mem := by
  obtain ⟨-, -, -, hmem, hcont⟩ := h
  obtain ⟨-, -, -, -, -, hown⟩ := hcont hv
  refine Memory.ext_of_read (Memory.wf_writeWords Memory.wf_nil 0 _) hmem fun p => ?_
  rw [Memory.read_writeWords Memory.wf_nil, if_neg (Nat.not_lt_zero p), Nat.sub_zero, Memory.read_nil]
  by_cases hp : p < s.ownedWords.length
  · rw [List.getD_eq_getElem _ _ hp, State.ownedWords_getElem]
  · rw [List.getD_eq_default _ _ (Nat.not_lt.1 hp)]
    by_contra hne
    obtain ⟨c, hc, rfl⟩ := Memory.mem_of_read (Ne.symm hne)
    exact hp (by rw [State.ownedWords_length]; exact hown c hc)

/-- A width of a container fits its byte (44_snapshot.md R117, R118). -/
theorem toNat_ofNat_of_width_le {w : Nat} (h : w ≤ 64) : (BitVec.ofNat 8 w).toNat = w :=
  Nat.mod_eq_of_lt (by omega)

theorem map_toNat_map_ofNat {ws : List Nat} (hw : ∀ w ∈ ws, w ≤ 64) :
    (ws.map (BitVec.ofNat 8)).map BitVec.toNat = ws := by
  rw [List.map_map]
  exact (List.map_congr_left fun w hwm => toNat_ofNat_of_width_le (hw w hwm)).trans (List.map_id ws)

/-- Registers and storage loaded with what a container holds are those of the container. -/
theorem State.Loaded.same_container {s t u : State} {src : Source} (e : u.Loaded t s.mode s.widths s.ownedWords src)
    (h : s.Inv) (hv : s.valid = true) : t.nf = s.nf ∧ t.rb = s.rb ∧ t.nw = s.nw ∧ t.mem = s.mem := by
  obtain ⟨hlen, -, hrb⟩ := h.fields hv
  exact ⟨BitVec.eq_of_toNat_eq (e.nf.trans hlen), BitVec.eq_of_toNat_eq (e.rb.trans hrb.symm),
    BitVec.eq_of_toNat_eq (e.nw.trans s.ownedWords_length), e.mem.trans (h.writeWords_ownedWords hv)⟩

/-- The snapshot of a container is one that the load of its mode accepts, and declares the container
(44_snapshot.md R129). -/
theorem State.Inv.exists_loaded_snapshot {s u : State} {rest : List Byte} (h : s.Inv) (hv : s.valid = true)
    (hc : u.cfg.Legal) (hnf : s.cfg.nfMax ≤ u.cfg.nfMax) (hnw : s.cfg.nwMax ≤ u.cfg.nwMax)
    (hr : u.src.ready = true) (hs : ∀ r rs, u.src.stops = r :: rs → s.snapshot.length ≤ r)
    (ha : u.src.ahead = s.snapshot ++ rest) :
    ∃ t, exec (if s.mode = .uniform then .ldu else .ldm) u = .next t ∧
      u.Loaded t s.mode s.widths s.ownedWords (u.src.advance s.snapshot.length) := by
  obtain ⟨hlen, hw, -⟩ := h.fields hv
  obtain ⟨hsize_uniform, hsize_multi⟩ := snapshotLayout s h hv
  obtain ⟨-, -, -, -, hcont⟩ := id h
  obtain ⟨hfields, -, -, -, hwords, -⟩ := hcont hv
  have hn : s.ownedWords.length ≤ u.cfg.nwMax := by
    rw [State.ownedWords_length]
    exact hwords.trans hnw
  rw [State.snapshot_eq] at ha
  cases hm : s.mode with
  | uniform =>
    obtain ⟨hsize, -⟩ := hsize_uniform hm
    obtain ⟨w, hwidths⟩ := List.length_eq_one_iff.1 (hlen.trans (h.nf_of_uniform hv hm))
    have hle : w ≤ 64 := hw w (by simp [hwidths])
    have hwidth : (BitVec.ofNat 8 w).toNat = w := toNat_ofNat_of_width_le hle
    rw [h.snapshotHeader_of_uniform hv hm, hwidths, ← s.ownedWords_length] at ha
    rw [hsize, ← s.ownedWords_length] at hs ⊢
    have hload := State.exists_loaded_ldu hc hr hs ha (hwidth.trans_le hle) hn
    rwa [hwidth, ← hwidths] at hload
  | multi =>
    obtain ⟨hsize, -⟩ := hsize_multi hm
    have hbytes : (s.widths.map (BitVec.ofNat 8)).length = s.nf.toNat := (List.length_map _).trans hlen
    rw [State.snapshotHeader_of_multi hm, ← hbytes, ← s.ownedWords_length] at ha
    rw [hsize, ← hbytes, ← s.ownedWords_length] at hs ⊢
    have hload := State.exists_loaded_ldm hc hr hs ha (hbytes.trans_le (hfields.trans hnf))
      (List.forall_mem_map.2 fun w hwm => (toNat_ofNat_of_width_le (hw w hwm)).trans_le (hw w hwm)) hn
    rwa [map_toNat_map_ofNat hw] at hload

/-- Settles O51: the snapshot declares the container, and what is loaded is what it declares. -/
theorem snapshotRoundTrip : Obligations.SnapshotRoundTrip := by
  intro s u rest h hv hc hnf hnw hr hs ha
  obtain ⟨t, e, hload⟩ := h.exists_loaded_snapshot hv hc hnf hnw hr hs ha
  obtain ⟨hnf', hrb, hnw', hmem⟩ := hload.same_container h hv
  refine ⟨t, e, hload.valid, hload.mode_eq, hnf', hload.widths_eq, hrb, hnw', hmem, ?_, ?_⟩ <;> rw [hload.frame]

end Sys2Proof.Machine
end

section
/-! PROOF. The family 60_exceptions.md: which errors and faults a command ends in, when the core is halted and how it
leaves that state, and the host's actions, which reach the ports alone. How a command ends is read off
`State.PlainEnd` and `State.ConstructorEnd`. -/

namespace Sys2Proof.Machine

/-! ## Errors and faults of a command -/

/-- All commands except BITW and the constructors can raise a fault (60_exceptions.md R138). -/
theorem Instr.mayRaise_of_not_constructor {i : Instr} (hc : isConstructor i = false) (hb : ∀ a, i ≠ .bitw a) :
    i = .cap ∨ i = .dump ∨ (∃ n, i = .get n) ∨ ∃ n vs, i = .set n vs := by
  cases i with
  | bitw a => exact absurd rfl (hb a)
  | cfgu | cfgm | ldu | ldm => cases hc
  | cap => exact .inl rfl
  | dump => exact .inr (.inl rfl)
  | get n => exact .inr (.inr (.inl ⟨n, rfl⟩))
  | set n vs => exact .inr (.inr (.inr ⟨n, vs, rfl⟩))

/-- Settles O21: each way a command ends is one of the three; the ways that wait contradict a port that answers. -/
theorem commandEndsInOneOfThreeWays : Obligations.CommandEndsInOneOfThreeWays := by
  intro i s t hp h
  cases hc : isConstructor i with
  | true =>
    cases exec_constructorEnd hc h with
    | waits _ _ hsilent => exact absurd hp hsilent
    | failed src st _ hst => exact .inr (.inl ⟨st, hst, .inl rfl, rfl, rfl⟩)
    | built => exact .inl ⟨[], rfl, rfl⟩
  | false =>
    cases exec_plainEnd hc h with
    | raised _ st hst hb => exact .inr (.inr ⟨st, hst, Instr.mayRaise_of_not_constructor hc hb, rfl⟩)
    | answered _ qs => exact .inl ⟨qs, rfl, rfl⟩
    | stored => exact .inl ⟨[], rfl, rfl⟩
    | dumped snk st _ _ hd =>
      rcases hd with ⟨rfl, -⟩ | ⟨rfl, -⟩
      · exact .inl ⟨[], rfl, rfl⟩
      · exact .inr (.inl ⟨.ioError, .inl rfl, .inr rfl, rfl, rfl⟩)
    | waits hv hr =>
      obtain ⟨-, hsnk⟩ := hp
      exact absurd (hsnk rfl hv) (Bool.eq_false_iff.1 hr)

/-- A constructor reports errors and never a fault (60_exceptions.md R136, R138). -/
theorem State.ConstructorEnd.fault {s t : State} {i : Instr} (e : s.ConstructorEnd i t) : t.fault = s.fault := by
  cases e <;> rfl

/-- Settles O23: NO_CONTAINER is tested first, BITW only answers, and a constructor leaves `FAULT` alone. -/
theorem noContainerFault : Obligations.NoContainerFault := by
  refine ⟨fun _ _ hv hi => exec_of_valid_false hv hi, fun i s t hi h => ?_⟩
  rcases hi with ⟨a, rfl⟩ | hc
  · injection h with h
    subst h
    rfl
  · exact (exec_constructorEnd hc h).fault

/-! ## The tests of SET and GET, in their order -/

theorem execSet_of_argCount {s : State} {n : Word} {vs : List Word} (hv : s.valid = true)
    (hn : vs.length ≠ s.nf.toNat) : execSet n vs s = raiseFault .argCount s := by
  rw [execSet, if_neg (by simp [hv]), if_pos hn]

theorem execSet_of_not_inRange {s : State} {n : Word} {vs : List Word} (hv : s.valid = true)
    (hn : vs.length = s.nf.toNat) (hr : ¬ s.InRange n.toNat) : execSet n vs s = raiseFault .indexRange s := by
  rw [execSet, if_neg (by simp [hv]), if_neg (not_not.2 hn), if_pos hr]

theorem execGet_of_not_inRange {s : State} {n : Word} (hv : s.valid = true) (hr : ¬ s.InRange n.toNat) :
    execGet n s = raiseFault .indexRange s := by
  rw [execGet, if_neg (by simp [hv]), if_pos hr]

/-- Settles O36: the tests that come before the one that raises have passed. -/
theorem argCountAndIndexRangeFaults : Obligations.ArgCountAndIndexRangeFaults :=
  fun _ _ _ hv => ⟨execSet_of_argCount hv, fun hn hr => execSet_of_not_inRange hv hn (Nat.not_le.2 hr),
    fun hr => execGet_of_not_inRange hv (Nat.not_le.2 hr)⟩

/-! ## The halted core -/

theorem execSet_fault {s : State} {n : Word} {vs : List Word} {f : Fault} (h : execSet n vs s = .fault f) :
    f = .storageAddress := by
  unfold execSet at h
  split_ifs at h
  · cases h
  · cases h
  · split at h
    · injection h with h
      exact h.symm
    · cases h
  · cases h

theorem execGet_fault {s : State} {n : Word} {f : Fault} (h : execGet n s = .fault f) : f = .storageAddress := by
  unfold execGet at h
  split_ifs at h
  · cases h
  · split at h
    · injection h with h
      exact h.symm
    · cases h
  · cases h

/-- The one stop of a command's own is a storage access out of range (20_memory.md R31; log 6). -/
theorem exec_fault {i : Instr} {s : State} {f : Fault} (h : exec i s = .fault f) : f = .storageAddress := by
  have of_next : (∃ t, exec i s = .next t) → f = .storageAddress := fun ⟨t, e⟩ => by
    rw [h] at e
    cases e
  cases i with
  | set n vs => exact execSet_fault h
  | get n => exact execGet_fault h
  | bitw | cfgu | cfgm => exact of_next ⟨_, rfl⟩
  | dump => exact of_next (execDump_total s)
  | cap | ldu | ldm => exact of_next (exists_next_ite ⟨_, rfl⟩ ⟨_, rfl⟩)

theorem State.deliver_fault {s : State} {o : Host.Outcome State Fault Refusal} {f : Fault}
    (h : s.deliver o = .fault f) : o = .fault f := by
  cases o with
  | next | refused => cases h
  | fault => exact h

theorem runHeld_ne_halted (k : Held) (s : State) : runHeld k s ≠ .fault .halted := by
  intro h
  cases ha : s.answers k with
  | true => cases exec_fault (runHeld_of_answers ha ▸ h)
  | false =>
    rw [runHeld_of_silent ha] at h
    cases k <;> cases h

theorem runFrame_ne_halted (s : State) : runFrame s ≠ .fault .halted := by
  intro h
  cases hd : decode s.cmd with
  | frame i rest => cases exec_fault (runFrame_of_frame hd ▸ h)
  | illegal why rest => cases runFrame_of_illegal hd ▸ h
  | incomplete => cases runFrame_of_incomplete hd ▸ h

/-- A turn stops as halted by the test of `FAULT` alone, which comes after the response still to be sent
(60_exceptions.md R141; logs 9, 11). -/
theorem runCommand_eq_halted {s : State} :
    runCommand s = .fault .halted ↔ s.fault ≠ 0x00#8 ∧ s.unsent = [] := by
  refine ⟨fun h => ?_, fun ⟨hf, hu⟩ => by rw [runCommand, if_neg (not_not.2 hu), if_pos hf]⟩
  unfold runCommand at h
  split at h
  · split at h <;> cases h
  · rename_i hu
    split at h
    · exact ⟨‹_›, not_not.1 hu⟩
    · split at h
      · exact absurd (State.deliver_fault h) (runHeld_ne_halted _ s)
      · exact absurd (State.deliver_fault h) (runFrame_ne_halted s)

/-- Settles O7: a reset is always a next state, and a turn without it stops as `runCommand_eq_halted` says. -/
theorem haltedCoreTakesNoStep : Obligations.HaltedCoreTakesNoStep := by
  intro s
  cases hrst : s.rst with
  | asserted moved => simp [step, hrst]
  | released => simp [step_of_released hrst, runCommand_eq_halted]

/-- What is sent of a response that was still to be sent: some first beats of it, where the host takes any
(30_encoding.md R46; log 11). -/
theorem State.exists_emit_send {s : State} (hu : s.unsent ≠ []) (hroom : s.rspRoom ≠ some 0) :
    ∃ n room, 0 < n ∧
      s.emit s.send = { s with rsp := s.rsp ++ s.unsent.take n, unsent := s.unsent.drop n, rspRoom := room } := by
  cases hr : s.rspRoom with
  | none =>
    refine ⟨s.unsent.length, none, List.length_pos_iff.2 hu, ?_⟩
    rw [State.emit_of_rspRoom_none hr, List.take_length, List.drop_length, ← hr]
    rfl
  | some k =>
    have hk : k ≠ 0 := fun h => hroom (h ▸ hr)
    exact ⟨k, some (k - s.unsent.length), Nat.pos_of_ne_zero hk, State.emit_of_rspRoom_some hr s.send_rsp⟩

/-- Settles O13: with `FAULT` set a turn without reset can only send the response; a reset clears both outputs. -/
theorem onlyResetLeavesTheHaltedState : Obligations.OnlyResetLeavesTheHaltedState := by
  intro s t hf h
  rcases step_next h with ⟨moved, hrst, rfl⟩ | ⟨hrst, h⟩
  · obtain ⟨src, snk, e⟩ := s.resetDuring_cases moved
    rw [e]
    exact .inr ⟨⟨moved, hrst⟩, rfl, rfl⟩
  · rcases runCommand_next h with ⟨hu, hroom, rfl⟩ | ⟨-, hzero, -⟩
    · obtain ⟨n, room, hn, e⟩ := State.exists_emit_send hu hroom
      rw [e]
      exact .inl ⟨hrst, hu, rfl, n, hn, rfl, rfl⟩
    · exact absurd hzero hf

/-! ## The host -/

/-- The host reaches the ports and the reset input alone (60_exceptions.md R151; log 20). -/
theorem State.host_eq (s : State) (a : HostAction) :
    s.host a = { s with cmd := (s.host a).cmd, rsp := (s.host a).rsp, rspRoom := (s.host a).rspRoom,
                        src := (s.host a).src, snk := (s.host a).snk, rst := (s.host a).rst } := by
  cases a <;> rfl

/-- Settles O18: neither invariant speaks of a port or of the reset input. -/
theorem hostActionsKeepTheInvariant : Obligations.HostActionsKeepTheInvariant := by
  intro s a
  rw [s.host_eq a]
  exact ⟨id, id⟩

end Sys2Proof.Machine
end

section
/-! PROOF. The family 70_reset_and_hazards.md: where a reset leaves the snapshot ports. One inductive predicate
says what a command does to the source and the sink, and each statement reads off it how far the command that reset
cuts off had got. -/

namespace Sys2Proof.Machine

/-! ## How far reads move the source -/

/-- The source `src'` is one that reads from `src` can lead to: the medium is the same, and what was delivered stays
delivered (44_snapshot.md R115). -/
def Source.Reaches (src src' : Source) : Prop := src'.bytes = src.bytes ∧ src.taken ≤ src'.taken

theorem Source.Reaches.refl (src : Source) : src.Reaches src := ⟨rfl, le_rfl⟩

theorem Source.Reaches.trans {a b c : Source} (h : a.Reaches b) (h' : b.Reaches c) : a.Reaches c := by
  obtain ⟨hbytes, htaken⟩ := h
  obtain ⟨hbytes', htaken'⟩ := h'
  exact ⟨hbytes'.trans hbytes, htaken.trans htaken'⟩

theorem Source.Reaches.of_read {src src' : Source} {k : Nat} {r : Option (List Byte)} (e : src.read k = (src', r)) :
    src.Reaches src' := by
  obtain rfl : (src.read k).1 = src' := congrArg Prod.fst e
  rcases src.read_cases k with ⟨bs, h, -⟩ | ⟨-, hbytes, htaken⟩
  · rw [h]
    exact ⟨rfl, Nat.le_add_right _ _⟩
  · exact ⟨hbytes, htaken.ge⟩

theorem readUniformHeader_reaches (src : Source) : src.Reaches (readUniformHeader src).1 := by
  unfold readUniformHeader
  split
  · exact .of_read ‹_›
  · rename_i hwidth
    split <;> exact (Source.Reaches.of_read hwidth).trans (.of_read ‹_›)

theorem readWidthBytes_reaches {src src' : Source} {n : Nat} {r : Option (List Byte)}
    (e : readWidthBytes src n = (src', r)) : src.Reaches src' := by
  unfold readWidthBytes at e
  split at e
  · injection e with e
    exact e ▸ .refl src
  · exact .of_read e

theorem readMultiHeader_reaches (nfMax : Nat) (src : Source) : src.Reaches (readMultiHeader nfMax src).1 := by
  unfold readMultiHeader
  split
  · exact .of_read ‹_›
  · rename_i hfields
    split
    · exact (Source.Reaches.of_read hfields).trans (.of_read ‹_›)
    · rename_i hwords
      have hcounts := (Source.Reaches.of_read hfields).trans (.of_read hwords)
      split
      · exact hcounts
      · split <;> exact hcounts.trans (readWidthBytes_reaches ‹_›)

theorem readWords_reaches (n k : Nat) (src : Source) (m : Memory) : src.Reaches (readWords k n src m).1 := by
  induction n generalizing k src m with
  | zero => exact .refl src
  | succ n ih =>
    rw [readWords]
    split
    · exact .of_read ‹_›
    · exact (Source.Reaches.of_read ‹_›).trans (ih _ _ _)

/-- A load goes on from where its header ends, whether it fails or not. -/
theorem load_reaches {mode : Mode} {hd : Source × Except Status LoadHeader} {s : State} (h : s.src.Reaches hd.1) :
    s.src.Reaches (load mode hd s).src := by
  obtain ⟨src, r⟩ := hd
  cases r with
  | error st => exact h
  | ok hdr =>
    rw [load, loadBody]
    split
    · exact h
    · split
      · exact h
      · have hwords := readWords_reaches hdr.words 0 src []
        split <;> (rename_i e; rw [e] at hwords; exact h.trans hwords)

/-- Where a load leaves the source depends on the parameters and the draw alone, besides its header. -/
theorem load_src_congr {s s' : State} (mode : Mode) (hd : Source × Except Status LoadHeader) (hcfg : s'.cfg = s.cfg)
    (hdraws : s'.draws = s.draws) : (load mode hd s').src = (load mode hd s).src := by
  have hfail : ∀ src st, (s'.failLoad src st).src = (s.failLoad src st).src := fun src st => by
    simp only [State.failLoad, State.failConstructor, State.respond_src, State.dropContainer_src, State.withSrc_src,
      hdraws]
  obtain ⟨src, r⟩ := hd
  cases r with
  | error st => exact hfail src st
  | ok hdr =>
    simp only [load, loadBody, hcfg]
    split
    · exact hfail _ _
    · split
      · exact hfail _ _
      · split
        · exact hfail _ _
        · rfl

/-! ## What a command does to the snapshot ports -/

/-- The ways in which a command leaves the source and the sink: `PortMove s i src snk` where command `i` on `s` leaves
them as `src` and `snk`. -/
inductive State.PortMove (s : State) : Instr → Source → Sink → Prop where
  /-- A DUMP that writes (44_snapshot.md R116, R119). -/
  | dumped (hv : s.valid = true) (hr : s.snk.ready = true) : PortMove s .dump s.src (s.snk.write s.snapshot).1
  /-- A load that reads (44_snapshot.md R121). -/
  | loaded (i : Instr) (src : Source) (hi : i = .ldu ∨ i = .ldm) (hr : s.src.ready = true) (h : s.src.Reaches src) :
      PortMove s i src s.snk
  /-- A command that gets to no access. -/
  | still (i : Instr) (hd : i = .dump → s.valid = false ∨ s.snk.ready = false)
      (hl : i = .ldu ∨ i = .ldm → s.src.ready = false) : PortMove s i s.src s.snk

theorem construct_ports (mode : Mode) (cap : Word) (hints : List Word) (s : State) :
    (construct mode cap hints s).src = s.src ∧ (construct mode cap hints s).snk = s.snk := by
  rcases construct_cases mode cap hints s with e | ⟨-, -, e⟩ <;> rw [e] <;> exact ⟨rfl, rfl⟩

theorem State.PlainEnd.ports {s t : State} {i : Instr} (e : s.PlainEnd i t) (hi : i ≠ .dump) :
    t.src = s.src ∧ t.snk = s.snk := by
  cases e with
  | raised | answered | stored => exact ⟨rfl, rfl⟩
  | dumped | waits => exact absurd rfl hi

theorem load_portMove {mode : Mode} {hd : Source × Except Status LoadHeader} {s : State} {i : Instr}
    (hi : i = .ldu ∨ i = .ldm) (hr : s.src.ready = true) (h : s.src.Reaches hd.1) :
    s.PortMove i (load mode hd s).src (load mode hd s).snk := by
  obtain ⟨-, -, hsnk⟩ := load_held mode hd s
  rw [hsnk]
  exact .loaded i _ hi hr (load_reaches h)

/-- Every next state of a command has the ports that `State.PortMove` says. -/
theorem exec_portMove {i : Instr} {s t : State} (h : exec i s = .next t) : s.PortMove i t.src t.snk := by
  have still : i ≠ .dump → ¬ (i = .ldu ∨ i = .ldm) → t.src = s.src ∧ t.snk = s.snk →
      s.PortMove i t.src t.snk := fun hd hl ⟨hsrc, hsnk⟩ => by
      rw [hsrc, hsnk]
      exact .still i (absurd · hd) (absurd · hl)
  cases i with
  | dump =>
    rcases execDump_next h with ⟨hv, rfl⟩ | ⟨-, hr, rfl⟩ | ⟨hv, hr, snk, st, hd, rfl⟩
    · exact .still _ (fun _ => .inl hv) (by simp)
    · exact .still _ (fun _ => .inr hr) (by simp)
    · obtain rfl : (s.snk.write s.snapshot).1 = snk := by
        rcases hd with ⟨-, e⟩ | ⟨-, e⟩ <;> rw [← s.dumpTo_eq, e]
      exact .dumped hv hr
  | ldu =>
    rcases execLdu_next h with ⟨hr, rfl⟩ | ⟨hr, rfl⟩
    · exact .still _ (by simp) fun _ => hr
    · exact load_portMove (.inl rfl) hr (readUniformHeader_reaches s.src)
  | ldm =>
    rcases execLdm_next h with ⟨hr, rfl⟩ | ⟨hr, rfl⟩
    · exact .still _ (by simp) fun _ => hr
    · exact load_portMove (.inr rfl) hr (readMultiHeader_reaches s.cfg.nfMax s.src)
  | cfgu | cfgm =>
    injection h with h
    exact still (by simp) (by simp) (h ▸ construct_ports _ _ _ s)
  | bitw | cap | set | get => exact still (by simp) (by simp) ((exec_plainEnd rfl h).ports (by simp))

theorem State.PortMove.reaches {s : State} {i : Instr} {src : Source} {snk : Sink} (h : s.PortMove i src snk) :
    s.src.Reaches src := by
  cases h with
  | loaded _ _ _ _ h => exact h
  | dumped | still => exact .refl s.src

/-- What a sink has gained from a write: all of it, or what comes before the sink's failure (44_snapshot.md R119). -/
theorem Sink.write_got (snk : Sink) (b : List Byte) :
    ((∀ r rs, snk.stops = r :: rs → b.length ≤ r) → (snk.write b).1.got = snk.got ++ b) ∧
    ∀ r rs, snk.stops = r :: rs → r < b.length → (snk.write b).1.got = snk.got ++ b.take r := by
  refine ⟨fun hle => ?_, fun r rs hs hlt => by rw [Sink.write_of_stop hs hlt]⟩
  rcases snk.write_cases b with e | ⟨r, rs, hs, hlt, -⟩
  · rw [e]
    rfl
  · exact absurd hlt (hle r rs hs).not_gt

theorem State.PortMove.exists_got {s : State} {i : Instr} {src : Source} {snk : Sink} (h : s.PortMove i src snk) :
    ∃ bs, snk.got = s.snk.got ++ bs := by
  cases h with
  | dumped =>
    rcases s.snk.write_cases s.snapshot with e | ⟨r, rs, -, -, e⟩ <;> rw [e] <;> exact ⟨_, rfl⟩
  | loaded | still => exact ⟨[], (List.append_nil _).symm⟩

/-! ## The command that a turn runs -/

/-- The state in which a turn of `s` runs its command: none is stuck, and `cmd` is left on the command port. -/
def State.turnStart (s : State) (cmd : List Word) : State := (s.withCmd cmd).withHeld none

/-- A command sees the same container and the same snapshot ports, whether it was stuck or has just been taken. -/
theorem State.PortMove.of_turnStart {s : State} {cmd : List Word} {i : Instr} {src : Source} {snk : Sink}
    (h : (s.turnStart cmd).PortMove i src snk) : s.PortMove i src snk := by
  cases h with
  | dumped hv hr => exact .dumped hv hr
  | loaded _ _ hi hr h => exact .loaded i src hi hr h
  | still _ hd hl => exact .still i hd hl

theorem State.turnStart_of_held_none {s : State} (h : s.held = none) (cmd : List Word) :
    s.turnStart cmd = s.withCmd cmd := by
  rw [State.turnStart, ← h]
  rfl

/-- The command that a reset would cut off is the one that the turn runs, once its port answers. -/
theorem State.CutsOff.runCommand_eq {s : State} {i : Instr} (h : s.CutsOff i)
    (hr : ∀ k : Held, k.instr = i → s.answers k = true) :
    ∃ cmd, runCommand s = s.deliver (exec i (s.turnStart cmd)) := by
  obtain ⟨hf, hu, ⟨hh, rest, hd⟩ | ⟨k, hh, rfl⟩⟩ := h
  · refine ⟨rest, ?_⟩
    rw [State.turnStart_of_held_none hh, ← runFrame_of_frame hd]
    simp [runCommand, hf, hu, hh]
  · refine ⟨s.cmd, ?_⟩
    rw [runCommand_of_held hf hu hh, runHeld_of_answers (hr k rfl)]
    rfl

/-- A turn moves the snapshot ports by the command that a reset would cut off, or not at all. -/
theorem runCommand_portMove {s t : State} (h : runCommand s = .next t) :
    (t.src = s.src ∧ t.snk = s.snk) ∨ ∃ i, s.CutsOff i ∧ s.PortMove i t.src t.snk := by
  rcases runCommand_next h with ⟨-, -, rfl⟩ | ⟨hu, hf, u, rfl, hturn⟩
  · exact .inl ⟨State.emit_src _ _, State.emit_snk _ _⟩
  · rw [State.emit_src, State.emit_snk]
    rcases hturn with ⟨k, hh, -, e⟩ | ⟨hh, ⟨i, rest, hd, e⟩ | ⟨why, rest, -, rfl⟩⟩
    · exact .inr ⟨k.instr, ⟨hf, hu, .inr ⟨k, hh, rfl⟩⟩, State.PortMove.of_turnStart (exec_portMove e)⟩
    · rw [← State.turnStart_of_held_none hh] at e
      exact .inr ⟨i, ⟨hf, hu, .inl ⟨hh, rest, hd⟩⟩, (exec_portMove e).of_turnStart⟩
    · exact .inl ⟨rfl, rfl⟩

/-! ## Where a reset leaves the snapshot ports -/

theorem step_of_asserted {s : State} {moved : Nat} (h : s.rst = .asserted moved) :
    step s = .next (s.resetDuring moved) := by
  simp [step, h]

theorem bytesGiven_eq {s t : State} {bs : List Byte} (h : t.snk.got = s.snk.got ++ bs) : bytesGiven s t = bs := by
  rw [bytesGiven, h, List.drop_left]

/-- A reset in a turn that gives bytes and takes none keeps the first `moved` of them, or all where they are fewer. -/
theorem State.resetDuring_of_given {s t : State} {bs : List Byte} (h : runCommand s = .next t) (hsrc : t.src = s.src)
    (hgot : t.snk.got = s.snk.got ++ bs) (moved : Nat) :
    (s.resetDuring moved).src = s.src ∧ (s.resetDuring moved).snk.got = s.snk.got ++ bs.take moved := by
  have htaken : bytesTaken s t = 0 := by rw [bytesTaken, hsrc, Nat.sub_self]
  obtain ⟨hports, -⟩ := s.resetDuring_ports moved
  obtain ⟨hpart, hwhole⟩ := hports t h
  rw [htaken, bytesGiven_eq hgot, Nat.zero_add] at hpart hwhole
  rcases Nat.lt_or_ge bs.length moved with hlt | hle
  · obtain ⟨e, e'⟩ := hwhole hlt
    rw [e, e', hsrc, hgot, List.take_of_length_le hlt.le]
    exact ⟨rfl, rfl⟩
  · obtain ⟨e, e'⟩ := hpart hle
    rw [e, e', Nat.min_zero, Source.advance_zero]
    exact ⟨rfl, rfl⟩

/-- A reset in a turn that gives no byte leaves the source after `moved` bytes, or where the turn leaves it. -/
theorem State.resetDuring_of_taken {s t : State} (h : runCommand s = .next t) (hsnk : t.snk = s.snk) (moved : Nat) :
    (s.resetDuring moved).snk = s.snk ∧
    (moved ≤ t.src.taken - s.src.taken → (s.resetDuring moved).src = s.src.advance moved) ∧
    (t.src.taken - s.src.taken < moved → (s.resetDuring moved).src = t.src) := by
  have hgiven : bytesGiven s t = [] := bytesGiven_eq (by rw [hsnk, List.append_nil])
  obtain ⟨hports, -⟩ := s.resetDuring_ports moved
  obtain ⟨hpart, hwhole⟩ := hports t h
  rw [hgiven, List.length_nil, Nat.add_zero, bytesTaken] at hpart hwhole
  rcases Nat.lt_or_ge (t.src.taken - s.src.taken) moved with hlt | hle
  · obtain ⟨e, e'⟩ := hwhole hlt
    exact ⟨e'.trans hsnk, fun hle => absurd hlt hle.not_gt, fun _ => e⟩
  · obtain ⟨e, e'⟩ := hpart hle
    rw [Nat.min_eq_left hle] at e
    rw [List.take_nil, Sink.accept_nil] at e'
    exact ⟨e', fun _ => e, fun hlt => absurd hlt hle.not_gt⟩

/-- A reset in a turn that moves nothing, or in none, moves nothing (70_reset_and_hazards.md R160). -/
theorem State.resetDuring_of_still {s : State} (h : ∀ t, runCommand s = .next t → t.src = s.src ∧ t.snk = s.snk)
    (moved : Nat) : (s.resetDuring moved).src = s.src ∧ (s.resetDuring moved).snk = s.snk := by
  by_cases hnext : ∃ t, runCommand s = .next t
  · obtain ⟨t, ht⟩ := hnext
    obtain ⟨hsrc, hsnk⟩ := h t ht
    obtain ⟨e, hpart, hwhole⟩ := State.resetDuring_of_taken ht hsnk moved
    rw [hsrc, Nat.sub_self] at hpart hwhole
    refine ⟨?_, e⟩
    rcases Nat.eq_zero_or_pos moved with rfl | hpos
    · exact (hpart le_rfl).trans s.src.advance_zero
    · exact hwhole hpos
  · obtain ⟨-, hnone⟩ := s.resetDuring_ports moved
    exact hnone fun t ht => hnext ⟨t, ht⟩

/-- A reset before any byte has moved touches neither port (70_reset_and_hazards.md R160). -/
theorem State.resetDuring_zero_ports (s : State) :
    (s.resetDuring 0).src = s.src ∧ (s.resetDuring 0).snk = s.snk := by
  obtain ⟨hports, hnone⟩ := s.resetDuring_ports 0
  by_cases hnext : ∃ t, runCommand s = .next t
  · obtain ⟨t, ht⟩ := hnext
    obtain ⟨hpart, -⟩ := hports t ht
    simpa using hpart (Nat.zero_le _)
  · exact hnone fun t ht => hnext ⟨t, ht⟩

/-- What a turn finds on the snapshot ports stays there. -/
theorem runCommand_keeps_ports {s t : State} (h : runCommand s = .next t) :
    s.src.Reaches t.src ∧ ∃ bs, t.snk.got = s.snk.got ++ bs := by
  rcases runCommand_portMove h with ⟨hsrc, hsnk⟩ | ⟨i, -, hmove⟩
  · rw [hsrc, hsnk]
    exact ⟨.refl s.src, [], (List.append_nil _).symm⟩
  · exact ⟨hmove.reaches, hmove.exists_got⟩

/-- After `moved` bytes no more than `moved` bytes have moved on either port (70_reset_and_hazards.md R161; log 15). -/
theorem State.resetDuring_bounds (s : State) (moved : Nat) :
    s.src.Reaches (s.resetDuring moved).src ∧ (s.resetDuring moved).src.taken ≤ s.src.taken + moved ∧
      ∃ bs : List Byte, bs.length ≤ moved ∧ (s.resetDuring moved).snk.got = s.snk.got ++ bs := by
  obtain ⟨hports, hnone⟩ := s.resetDuring_ports moved
  by_cases hnext : ∃ t, runCommand s = .next t
  · obtain ⟨t, ht⟩ := hnext
    obtain ⟨hpart, hwhole⟩ := hports t ht
    obtain ⟨⟨hbytes, htaken⟩, bs, hgot⟩ := runCommand_keeps_ports ht
    rw [bytesGiven_eq hgot, bytesTaken] at hpart hwhole
    rcases Nat.lt_or_ge (t.src.taken - s.src.taken + bs.length) moved with hlt | hle
    · obtain ⟨e, e'⟩ := hwhole hlt
      rw [e, e']
      exact ⟨⟨hbytes, htaken⟩, by omega, bs, by omega, hgot⟩
    · obtain ⟨e, e'⟩ := hpart hle
      rw [e, e']
      exact ⟨⟨rfl, Nat.le_add_right _ _⟩, Nat.add_le_add_left (Nat.min_le_left _ _) _, bs.take moved,
        List.length_take_le _ _, rfl⟩
  · obtain ⟨e, e'⟩ := hnone fun t ht => hnext ⟨t, ht⟩
    rw [e, e']
    exact ⟨.refl s.src, Nat.le_add_right _ _, [], Nat.zero_le _, (List.append_nil _).symm⟩

/-- Settles O14: reset leaves the core as `State.afterReset` says, and the ports within the bounds. -/
theorem resetStepLeavesNoContainer : Obligations.ResetStepLeavesNoContainer := by
  intro s moved hrst
  obtain ⟨⟨hbytes, htaken⟩, hbound, hgot⟩ := s.resetDuring_bounds moved
  have hzero : moved = 0 → (s.resetDuring moved).src = s.src ∧ (s.resetDuring moved).snk = s.snk := by
    rintro rfl
    exact s.resetDuring_zero_ports
  obtain ⟨src, snk, e⟩ := s.resetDuring_cases moved
  refine ⟨s.resetDuring moved, step_of_asserted hrst, ?_⟩
  rw [e] at hbytes htaken hbound hgot hzero ⊢
  exact ⟨rfl, rfl, rfl, rfl, rfl, rfl, rfl, rfl, rfl, hbytes, htaken, hbound, hgot, hzero⟩

/-! ## What a command that is cut off has moved -/

/-- A load that goes on after it was stuck, or that has just been taken, leaves the source where the same load leaves it
from `s`. -/
theorem exec_load_turnStart {s u : State} {i : Instr} (hi : i = .ldu ∨ i = .ldm) (hr : s.src.ready = true)
    (h : exec i s = .next u) (cmd : List Word) :
    ∃ t, exec i (s.turnStart cmd) = .next t ∧ t.src = u.src ∧ t.snk = s.snk := by
  have same : ∀ mode hd, load mode hd s = u →
      (load mode hd (s.turnStart cmd)).src = u.src ∧ (load mode hd (s.turnStart cmd)).snk = s.snk := by
    rintro mode hd rfl
    obtain ⟨-, -, hsnk⟩ := load_held mode hd (s.turnStart cmd)
    exact ⟨load_src_congr mode hd rfl rfl, hsnk⟩
  rcases hi with rfl | rfl
  · rw [exec_ldu_of_ready hr] at h
    injection h with h
    exact ⟨_, exec_ldu_of_ready (s := s.turnStart cmd) hr, same _ _ h⟩
  · rw [exec_ldm_of_ready hr] at h
    injection h with h
    exact ⟨_, exec_ldm_of_ready (s := s.turnStart cmd) hr, same _ _ h⟩

theorem State.answers_of_load {s : State} {k : Held} (hi : k.instr = .ldu ∨ k.instr = .ldm)
    (hr : s.src.ready = true) : s.answers k = true := by
  cases k with
  | ldu | ldm => exact hr
  | dump => simp [Held.instr] at hi

theorem State.answers_of_dump {s : State} {k : Held} (hk : k.instr = .dump) (hr : s.snk.ready = true) :
    s.answers k = true := by
  cases k with
  | dump => exact hr
  | ldu | ldm => cases hk

/-- The turn of a load that a reset would cut off. -/
theorem State.CutsOff.runCommand_load {s u : State} {i : Instr} (h : s.CutsOff i) (hi : i = .ldu ∨ i = .ldm)
    (hr : s.src.ready = true) (hu : exec i s = .next u) :
    ∃ t, runCommand s = .next t ∧ t.src = u.src ∧ t.snk = s.snk := by
  obtain ⟨cmd, e⟩ := h.runCommand_eq fun k hk => State.answers_of_load (hk ▸ hi) hr
  obtain ⟨t, ht, hsrc, hsnk⟩ := exec_load_turnStart hi hr hu cmd
  rw [ht] at e
  exact ⟨s.emit t, e, (State.emit_src s t).trans hsrc, (State.emit_snk s t).trans hsnk⟩

/-- The turn of a DUMP that a reset would cut off is one write of the snapshot. -/
theorem State.CutsOff.runCommand_dump {s : State} (h : s.CutsOff .dump) (hv : s.valid = true)
    (hr : s.snk.ready = true) :
    ∃ t, runCommand s = .next t ∧ t.src = s.src ∧ t.snk = (s.snk.write s.snapshot).1 := by
  obtain ⟨cmd, e⟩ := h.runCommand_eq fun k hk => State.answers_of_dump hk hr
  rw [exec_dump_of_write (s := s.turnStart cmd) hv hr rfl] at e
  exact ⟨_, e, State.emit_src _ _, State.emit_snk _ _⟩

/-- A reset that cuts off a DUMP leaves what the first `moved` bytes of its one write leave (44_snapshot.md R119). -/
theorem State.CutsOff.resetDuring_dump {s : State} (h : s.CutsOff .dump) (hv : s.valid = true)
    (hr : s.snk.ready = true) (moved : Nat) :
    (s.resetDuring moved).src = s.src ∧
    ((∀ r rs, s.snk.stops = r :: rs → s.snapshot.length ≤ r) →
      (s.resetDuring moved).snk.got = s.snk.got ++ s.snapshot.take moved) ∧
    ∀ r rs, s.snk.stops = r :: rs → r < s.snapshot.length →
      (s.resetDuring moved).snk.got = s.snk.got ++ s.snapshot.take (min moved r) := by
  obtain ⟨t, ht, hsrc, hsnk⟩ := h.runCommand_dump hv hr
  have keeps : ∀ bs, (s.snk.write s.snapshot).1.got = s.snk.got ++ bs →
      (s.resetDuring moved).src = s.src ∧ (s.resetDuring moved).snk.got = s.snk.got ++ bs.take moved :=
    fun bs e => State.resetDuring_of_given ht hsrc (hsnk ▸ e) moved
  obtain ⟨hwhole, hcut⟩ := s.snk.write_got s.snapshot
  refine ⟨?_, fun hle => (keeps _ (hwhole hle)).right, fun r rs hs hlt => ?_⟩
  · obtain ⟨bs, e⟩ := (State.PortMove.dumped hv hr).exists_got
    exact (keeps bs e).left
  · rw [(keeps _ (hcut r rs hs hlt)).right, List.take_take]

/-- A reset that cuts off a load leaves the source after `moved` bytes, or where the whole load leaves it. -/
theorem State.CutsOff.resetDuring_load {s u : State} {i : Instr} (h : s.CutsOff i) (hi : i = .ldu ∨ i = .ldm)
    (hr : s.src.ready = true) (hu : exec i s = .next u) (moved : Nat) :
    (s.resetDuring moved).snk = s.snk ∧
    (moved ≤ u.src.taken - s.src.taken → (s.resetDuring moved).src = s.src.advance moved) ∧
    (u.src.taken - s.src.taken < moved → (s.resetDuring moved).src = u.src) := by
  obtain ⟨t, ht, hsrc, hsnk⟩ := h.runCommand_load hi hr hu
  exact hsrc ▸ State.resetDuring_of_taken ht hsnk moved

/-- A reset that cuts off no DUMP that writes and no load that reads moves nothing. -/
theorem State.resetDuring_of_no_access {s : State} (hd : s.CutsOff .dump → s.valid = false ∨ s.snk.ready = false)
    (hl : s.CutsOff .ldu ∨ s.CutsOff .ldm → s.src.ready = false) (moved : Nat) :
    (s.resetDuring moved).src = s.src ∧ (s.resetDuring moved).snk = s.snk := by
  refine State.resetDuring_of_still (fun t ht => ?_) moved
  rcases runCommand_portMove ht with hsame | ⟨i, hcut, hmove⟩
  · exact hsame
  · generalize t.src = src, t.snk = snk at hmove ⊢
    cases hmove with
    | dumped hv hr =>
      rcases hd hcut with h | h
      · exact absurd hv (Bool.eq_false_iff.1 h)
      · exact absurd hr (Bool.eq_false_iff.1 h)
    | loaded _ _ hi hr =>
      have hcuts : s.CutsOff .ldu ∨ s.CutsOff .ldm := by
        rcases hi with rfl | rfl
        · exact .inl hcut
        · exact .inr hcut
      exact absurd hr (Bool.eq_false_iff.1 (hl hcuts))
    | still => exact ⟨rfl, rfl⟩

/-- Settles O15: a DUMP that writes, a load that reads, and every other turn. -/
theorem resetKeepsWhatWasMoved : Obligations.ResetKeepsWhatWasMoved := by
  intro s moved hrst
  refine ⟨s.resetDuring moved, step_of_asserted hrst, fun h hv hr => h.resetDuring_dump hv hr moved,
    fun u hu hr => ?_, fun hd hl => State.resetDuring_of_no_access hd hl moved⟩
  rcases hu with ⟨h, e⟩ | ⟨h, e⟩
  · exact h.resetDuring_load (.inl rfl) hr e moved
  · exact h.resetDuring_load (.inr rfl) hr e moved

end Sys2Proof.Machine
end
